-- ==== Sys2Proof/Word.lean ====
section
/-! DEFINITION. The word types of the CHIP-8 core. -/

namespace Sys2Proof

/-- A byte of memory, a V register, a timer (10_state.md R20). -/
abbrev Byte := BitVec 8

/-- A 16-bit value: an opcode, the storage of I and PC, a stack slot (10_state.md R20). -/
abbrev Word := BitVec 16

/-- A register index, 0 to 15: no out-of-range index can be written down (10_state.md R24). -/
abbrev Reg := Fin 16

/-- VF, the flag register (10_state.md R26). -/
abbrev Reg.vf : Reg := 15

end Sys2Proof
end

