-- ==== Sys2Proof/Config.lean ====
section
/-! DEFINITION. What an implementation fixes (00_scope.md R9): the sizes, the parameters of one instance, and the one free
value, the RAND oracle. The values this hardware takes for the parameters are in Machine/Defaults.lean. -/

namespace Sys2Proof.Config

/-- `MEM_SIZE` (R9): addresses 0x000 to 0xFFF. -/
abbrev memSize : Nat := 4096

/-- `STACK_DEPTH` (R9). -/
abbrev stackDepth : Nat := 16

/-- `FB_W` (R9). -/
abbrev fbWidth : Nat := 64

/-- `FB_H` (R9). -/
abbrev fbHeight : Nat := 32

/-- `NUM_KEYS` (R9). -/
abbrev numKeys : Nat := 16

/-- `LOAD_OFFSET_DEFAULT` (R9). -/
abbrev loadOffsetDefault : Nat := 0x200

/-- The bytes of the font table: 16 glyphs of 5 bytes (20_memory.md R52). -/
abbrev fontSize : Nat := 80

/-- `SHIFT_SOURCE` (R9, D10): the register 8XY6 and 8XYE shift. -/
inductive ShiftSource where
  | vx
  | vy
  deriving DecidableEq, Repr

/-- `JUMP_OFFSET_REG` (R9, D15): the register BNNN adds. -/
inductive JumpOffsetReg where
  | v0
  | vx
  deriving DecidableEq, Repr

/-- Which pressed keys a key-wait poll counts (93_implementation_defined.md U14): all of them, or only those pressed since
the wait last looked. -/
inductive KeySense where
  | level
  | edge
  deriving DecidableEq, Repr

/-- Which of several keys a key-wait poll takes. -/
inductive KeyOrder where
  | lowest
  | highest
  deriving DecidableEq, Repr

/-- `KEY_WAIT_SELECT` (R9, D20, U14). What the values other than R9's do is DESIGN CHOICE, safe (log 30). -/
structure KeyWaitSelect where
  sense : KeySense
  order : KeyOrder
  deriving DecidableEq, Repr

/-- The parameters of 00_scope.md R9 that the source does not settle: the OPEN-able ones, and the three that
93_implementation_defined.md U12 to U14 makes parameters too. They are fixed per instance (10_state.md R41).
`keyIndexMask` is a mask within the low nibble, since EX9E and EXA1 never fault (U12; log 30). `fontBase` satisfies `FONT_BASE + 80 <= 0x200` by its type. DESIGN CHOICE, safe (log 3): an instance carries them in
its state, so a statement over all states holds for every value of them. -/
structure Params where
  shiftSource : ShiftSource
  logicVfReset : Bool
  loadstoreIIncrement : Bool
  jumpOffsetReg : JumpOffsetReg
  keyIndexMask : BitVec 4
  fontDigitMask : Byte
  keyWaitSelect : KeyWaitSelect
  fontBase : Fin 433
  fontData : Vector Byte 80
  deriving DecidableEq, Repr

/-- The `RAND` oracle (R9, 42_register_alu.md R114): the byte of the n-th draw is a free value, nothing constrains it.
DESIGN CHOICE, safe (log 4). -/
opaque rand : Nat → Byte

end Sys2Proof.Config
end

