-- ==== Sys2Proof/Syntax.lean ====
section
/-! DEFINITION. The 34 instructions of spec/opcode_table.json, one constructor per row, with the operands each format
names (30_encoding.md R65, R71). -/

namespace Sys2Proof

/-- One constructor per row of the opcode table. X and Y are register indices, KK an 8-bit immediate, NNN a 12-bit
address, N a 4-bit count; all are unsigned (30_encoding.md R67). -/
inductive Instr where
  /-- 00E0 `CLS` (R115). -/
  | cls
  /-- 00EE `RET` (R94). -/
  | ret
  /-- 1NNN `JP addr` (R95). -/
  | jpAddr (nnn : BitVec 12)
  /-- 2NNN `CALL addr` (R96). -/
  | callAddr (nnn : BitVec 12)
  /-- 3XKK `SE Vx, byte` (R98). -/
  | seVxByte (x : Reg) (kk : Byte)
  /-- 4XKK `SNE Vx, byte` (R99). -/
  | sneVxByte (x : Reg) (kk : Byte)
  /-- 5XY0 `SE Vx, Vy` (R100). -/
  | seVxVy (x y : Reg)
  /-- 6XKK `LD Vx, byte` (R103). -/
  | ldVxByte (x : Reg) (kk : Byte)
  /-- 7XKK `ADD Vx, byte` (R104). -/
  | addVxByte (x : Reg) (kk : Byte)
  /-- 8XY0 `LD Vx, Vy` (R105). -/
  | ldVxVy (x y : Reg)
  /-- 8XY1 `OR Vx, Vy` (R106). -/
  | orVxVy (x y : Reg)
  /-- 8XY2 `AND Vx, Vy` (R107). -/
  | andVxVy (x y : Reg)
  /-- 8XY3 `XOR Vx, Vy` (R108). -/
  | xorVxVy (x y : Reg)
  /-- 8XY4 `ADD Vx, Vy` (R109). -/
  | addVxVy (x y : Reg)
  /-- 8XY5 `SUB Vx, Vy` (R110). -/
  | subVxVy (x y : Reg)
  /-- 8XY6 `SHR Vx, Vy` (R111). -/
  | shrVxVy (x y : Reg)
  /-- 8XY7 `SUBN Vx, Vy` (R112). -/
  | subnVxVy (x y : Reg)
  /-- 8XYE `SHL Vx, Vy` (R113). -/
  | shlVxVy (x y : Reg)
  /-- 9XY0 `SNE Vx, Vy` (R101). -/
  | sneVxVy (x y : Reg)
  /-- ANNN `LD I, addr` (R118). -/
  | ldIAddr (nnn : BitVec 12)
  /-- BNNN `JP V0, addr` (R97). -/
  | jpV0Addr (nnn : BitVec 12)
  /-- CXKK `RND Vx, byte` (R114). -/
  | rndVxByte (x : Reg) (kk : Byte)
  /-- DXYN `DRW Vx, Vy, nibble` (R116). -/
  | drwVxVyNibble (x y : Reg) (n : BitVec 4)
  /-- EX9E `SKP Vx` (R123). -/
  | skpVx (x : Reg)
  /-- EXA1 `SKNP Vx` (R124). -/
  | sknpVx (x : Reg)
  /-- FX07 `LD Vx, DT` (R125). -/
  | ldVxDT (x : Reg)
  /-- FX0A `LD Vx, K` (R126). -/
  | ldVxK (x : Reg)
  /-- FX15 `LD DT, Vx` (R127). -/
  | ldDTVx (x : Reg)
  /-- FX18 `LD ST, Vx` (R128). -/
  | ldSTVx (x : Reg)
  /-- FX1E `ADD I, Vx` (R119). -/
  | addIVx (x : Reg)
  /-- FX29 `LD F, Vx` (R117). -/
  | ldFVx (x : Reg)
  /-- FX33 `LD B, Vx` (R120). -/
  | ldBVx (x : Reg)
  /-- FX55 `LD [I], Vx` (R121). -/
  | ldMemVx (x : Reg)
  /-- FX65 `LD Vx, [I]` (R122). -/
  | ldVxMem (x : Reg)
  deriving DecidableEq, Repr

end Sys2Proof
end

