-- ==== Sys2Proof/Decode.lean ====
section
/-! DEFINITION. Decoding (30_encoding.md R64 to R75), total on any bytes; after it the encoder, written from the same
tables, the rows of the opcode table, and the assembler notation of R76. -/

namespace Sys2Proof

/-! ## The fields of an opcode (R65) -/

/-- `H`, bits 15:12: the major opcode. -/
def fieldH (w : Word) : BitVec 4 := w.extractLsb' 12 4

/-- A 4-bit field as a register index (R67). -/
def regOfBits (b : BitVec 4) : Reg := ⟨b.toNat, b.isLt⟩

/-- `X`, bits 11:8, as a register index. -/
def fieldX (w : Word) : Reg := regOfBits (w.extractLsb' 8 4)

/-- `Y`, bits 7:4, as a register index. -/
def fieldY (w : Word) : Reg := regOfBits (w.extractLsb' 4 4)

/-- `N`, bits 3:0. -/
def fieldN (w : Word) : BitVec 4 := w.extractLsb' 0 4

/-- `KK`, bits 7:0. -/
def fieldKK (w : Word) : Byte := w.extractLsb' 0 8

/-- `NNN`, bits 11:0. -/
def fieldNNN (w : Word) : BitVec 12 := w.extractLsb' 0 12

/-! ## Decoding -/

/-- H = 0x0: the whole word must be 0x00E0 or 0x00EE (R69). UNVERIFIED, unsafe (log 27). -/
def decode0 (w : Word) : Option Instr :=
  if w = 0x00E0 then some .cls
  else if w = 0x00EE then some .ret
  else none

/-- H = 0x8: the sub-opcode is N (R69). -/
def decode8 (w : Word) : Option Instr :=
  let x := fieldX w
  let y := fieldY w
  let n := fieldN w
  if n = 0x0 then some (.ldVxVy x y)
  else if n = 0x1 then some (.orVxVy x y)
  else if n = 0x2 then some (.andVxVy x y)
  else if n = 0x3 then some (.xorVxVy x y)
  else if n = 0x4 then some (.addVxVy x y)
  else if n = 0x5 then some (.subVxVy x y)
  else if n = 0x6 then some (.shrVxVy x y)
  else if n = 0x7 then some (.subnVxVy x y)
  else if n = 0xE then some (.shlVxVy x y)
  else none

/-- H = 0xE: the sub-opcode is KK (R69). -/
def decodeE (w : Word) : Option Instr :=
  let x := fieldX w
  let kk := fieldKK w
  if kk = 0x9E then some (.skpVx x)
  else if kk = 0xA1 then some (.sknpVx x)
  else none

/-- H = 0xF: the sub-opcode is KK (R69). -/
def decodeF (w : Word) : Option Instr :=
  let x := fieldX w
  let kk := fieldKK w
  if kk = 0x07 then some (.ldVxDT x)
  else if kk = 0x0A then some (.ldVxK x)
  else if kk = 0x15 then some (.ldDTVx x)
  else if kk = 0x18 then some (.ldSTVx x)
  else if kk = 0x1E then some (.addIVx x)
  else if kk = 0x29 then some (.ldFVx x)
  else if kk = 0x33 then some (.ldBVx x)
  else if kk = 0x55 then some (.ldMemVx x)
  else if kk = 0x65 then some (.ldVxMem x)
  else none

/-- The instruction a 16-bit word stands for, none where the word is invalid (R68, R70, R73).
UNVERIFIED, unsafe (log 8): the encodings are the ones the spec supplies. -/
def decode (w : Word) : Option Instr :=
  let h := fieldH w
  if h = 0x0 then decode0 w
  else if h = 0x1 then some (.jpAddr (fieldNNN w))
  else if h = 0x2 then some (.callAddr (fieldNNN w))
  else if h = 0x3 then some (.seVxByte (fieldX w) (fieldKK w))
  else if h = 0x4 then some (.sneVxByte (fieldX w) (fieldKK w))
  else if h = 0x5 then if fieldN w = 0 then some (.seVxVy (fieldX w) (fieldY w)) else none
  else if h = 0x6 then some (.ldVxByte (fieldX w) (fieldKK w))
  else if h = 0x7 then some (.addVxByte (fieldX w) (fieldKK w))
  else if h = 0x8 then decode8 w
  else if h = 0x9 then if fieldN w = 0 then some (.sneVxVy (fieldX w) (fieldY w)) else none
  else if h = 0xA then some (.ldIAddr (fieldNNN w))
  else if h = 0xB then some (.jpV0Addr (fieldNNN w))
  else if h = 0xC then some (.rndVxByte (fieldX w) (fieldKK w))
  else if h = 0xD then some (.drwVxVyNibble (fieldX w) (fieldY w) (fieldN w))
  else if h = 0xE then decodeE w
  else decodeF w

/-- The opcode of two bytes: the first byte is bits 15:8 (20_memory.md R53). -/
def wordOfBytes (hi lo : Byte) : Word := hi ++ lo

/-- What decoding a list of bytes gives. -/
inductive DecodeResult where
  /-- An instruction, with the bytes after it. -/
  | instr (i : Instr) (rest : List Byte)
  /-- The first word matches no row of the table (R73). -/
  | invalid (w : Word)
  /-- Fewer than the two bytes of a word (R64). -/
  | truncated
  deriving DecidableEq, Repr

/-- Decode the instruction at the head of a list of bytes (R64, R70). -/
def decodeBytes : List Byte → DecodeResult
  | hi :: lo :: rest =>
    match decode (wordOfBytes hi lo) with
    | some i => .instr i rest
    | none => .invalid (wordOfBytes hi lo)
  | _ => .truncated

/-- The 16-bit word whose low `nbits` bits are those of `w`; the bits above them are 0. -/
def tableWord (nbits w : Nat) : Word := BitVec.ofNat 16 (w % 2 ^ nbits)

/-- The two bytes of a word as memory holds them: the high byte at the lower address (20_memory.md R53). -/
def bytesOfWord (w : Word) : List Byte := [w.extractLsb' 8 8, w.extractLsb' 0 8]

/-- The instruction the decoder reads from a word numbered as spec/opcode_table.json numbers it. -/
def decodeTableWord (nbits w : Nat) : Option Instr :=
  match decodeBytes (bytesOfWord (tableWord nbits w)) with
  | .instr i _ => some i
  | .invalid _ => none
  | .truncated => none

/-! ## Encoding -/

/-- A register index as the 4 bits of its field (R67). -/
def regBits (r : Reg) : BitVec 4 := BitVec.ofNat 4 r.val

/-- The word of an instruction: the bits of the `encoding` column of opcode_table.json (R68, R69). -/
def encode : Instr → Word
  | .cls => 0x00E0
  | .ret => 0x00EE
  | .jpAddr nnn => 0x1#4 ++ nnn
  | .callAddr nnn => 0x2#4 ++ nnn
  | .seVxByte x kk => 0x3#4 ++ regBits x ++ kk
  | .sneVxByte x kk => 0x4#4 ++ regBits x ++ kk
  | .seVxVy x y => 0x5#4 ++ regBits x ++ regBits y ++ 0x0#4
  | .ldVxByte x kk => 0x6#4 ++ regBits x ++ kk
  | .addVxByte x kk => 0x7#4 ++ regBits x ++ kk
  | .ldVxVy x y => 0x8#4 ++ regBits x ++ regBits y ++ 0x0#4
  | .orVxVy x y => 0x8#4 ++ regBits x ++ regBits y ++ 0x1#4
  | .andVxVy x y => 0x8#4 ++ regBits x ++ regBits y ++ 0x2#4
  | .xorVxVy x y => 0x8#4 ++ regBits x ++ regBits y ++ 0x3#4
  | .addVxVy x y => 0x8#4 ++ regBits x ++ regBits y ++ 0x4#4
  | .subVxVy x y => 0x8#4 ++ regBits x ++ regBits y ++ 0x5#4
  | .shrVxVy x y => 0x8#4 ++ regBits x ++ regBits y ++ 0x6#4
  | .subnVxVy x y => 0x8#4 ++ regBits x ++ regBits y ++ 0x7#4
  | .shlVxVy x y => 0x8#4 ++ regBits x ++ regBits y ++ 0xE#4
  | .sneVxVy x y => 0x9#4 ++ regBits x ++ regBits y ++ 0x0#4
  | .ldIAddr nnn => 0xA#4 ++ nnn
  | .jpV0Addr nnn => 0xB#4 ++ nnn
  | .rndVxByte x kk => 0xC#4 ++ regBits x ++ kk
  | .drwVxVyNibble x y n => 0xD#4 ++ regBits x ++ regBits y ++ n
  | .skpVx x => 0xE#4 ++ regBits x ++ 0x9E#8
  | .sknpVx x => 0xE#4 ++ regBits x ++ 0xA1#8
  | .ldVxDT x => 0xF#4 ++ regBits x ++ 0x07#8
  | .ldVxK x => 0xF#4 ++ regBits x ++ 0x0A#8
  | .ldDTVx x => 0xF#4 ++ regBits x ++ 0x15#8
  | .ldSTVx x => 0xF#4 ++ regBits x ++ 0x18#8
  | .addIVx x => 0xF#4 ++ regBits x ++ 0x1E#8
  | .ldFVx x => 0xF#4 ++ regBits x ++ 0x29#8
  | .ldBVx x => 0xF#4 ++ regBits x ++ 0x33#8
  | .ldMemVx x => 0xF#4 ++ regBits x ++ 0x55#8
  | .ldVxMem x => 0xF#4 ++ regBits x ++ 0x65#8

/-- The bytes of an instruction in memory (R64, R53). -/
def encodeBytes (i : Instr) : List Byte := bytesOfWord (encode i)

/-! ## The rows of the opcode table -/

/-- A row of opcode_table.json: a word matches it when `(word & mask) = bits` (R70, R78). -/
structure OpcodeRow where
  mask : Word
  bits : Word
  deriving DecidableEq, Repr

/-- Does the word match the row (R70)? -/
def OpcodeRow.accepts (r : OpcodeRow) (w : Word) : Bool := decide (w &&& r.mask = r.bits)

/-- The rows whose major opcode alone names them. -/
def rowsByMajor : List OpcodeRow :=
  [⟨0xF000, 0x1000⟩, ⟨0xF000, 0x2000⟩, ⟨0xF000, 0x3000⟩, ⟨0xF000, 0x4000⟩, ⟨0xF000, 0x6000⟩, ⟨0xF000, 0x7000⟩] ++
  [⟨0xF000, 0xA000⟩, ⟨0xF000, 0xB000⟩, ⟨0xF000, 0xC000⟩, ⟨0xF000, 0xD000⟩]

/-- The rows refined by the low nibble. -/
def rowsByNibble : List OpcodeRow :=
  [⟨0xF00F, 0x5000⟩, ⟨0xF00F, 0x8000⟩, ⟨0xF00F, 0x8001⟩, ⟨0xF00F, 0x8002⟩, ⟨0xF00F, 0x8003⟩, ⟨0xF00F, 0x8004⟩] ++
  [⟨0xF00F, 0x8005⟩, ⟨0xF00F, 0x8006⟩, ⟨0xF00F, 0x8007⟩, ⟨0xF00F, 0x800E⟩, ⟨0xF00F, 0x9000⟩]

/-- The rows refined by the low byte, and the two fixed words. -/
def rowsByByte : List OpcodeRow :=
  [⟨0xFFFF, 0x00E0⟩, ⟨0xFFFF, 0x00EE⟩, ⟨0xF0FF, 0xE09E⟩, ⟨0xF0FF, 0xE0A1⟩, ⟨0xF0FF, 0xF007⟩, ⟨0xF0FF, 0xF00A⟩] ++
  [⟨0xF0FF, 0xF015⟩, ⟨0xF0FF, 0xF018⟩, ⟨0xF0FF, 0xF01E⟩, ⟨0xF0FF, 0xF029⟩, ⟨0xF0FF, 0xF033⟩, ⟨0xF0FF, 0xF055⟩] ++
  [⟨0xF0FF, 0xF065⟩]

/-- The mask and match of all 34 rows of opcode_table.json (R78). -/
def opcodeRows : List OpcodeRow := rowsByMajor ++ rowsByNibble ++ rowsByByte

/-! ## Assembler notation (R76) -/

/-- One hexadecimal digit. -/
def hexDigit (b : BitVec 4) : String :=
  (["0", "1", "2", "3", "4", "5", "6", "7"] ++ ["8", "9", "A", "B", "C", "D", "E", "F"]).getD b.toNat "0"

/-- A register operand, `V0` to `VF`. -/
def asmReg (r : Reg) : String := "V" ++ hexDigit (regBits r)

/-- A `byte` operand, `0xKK`. -/
def asmByte (kk : Byte) : String := "0x" ++ hexDigit (kk.extractLsb' 4 4) ++ hexDigit (kk.extractLsb' 0 4)

/-- An `addr` operand, `0xNNN`. -/
def asmAddr (nnn : BitVec 12) : String :=
  "0x" ++ hexDigit (nnn.extractLsb' 8 4) ++ hexDigit (nnn.extractLsb' 4 4) ++ hexDigit (nnn.extractLsb' 0 4)

/-- A two-register operand list. -/
def asmRegs (x y : Reg) : String := asmReg x ++ ", " ++ asmReg y

/-- The register BNNN is written with: `V0`, or `Vx` when `JUMP_OFFSET_REG` is VX and X is not 0 (R76). -/
def asmJumpReg (p : Config.Params) (nnn : BitVec 12) : String :=
  match p.jumpOffsetReg with
  | .v0 => "V0"
  | .vx => asmReg (regOfBits (nnn.extractLsb' 8 4))

/-- A `nibble` operand: R76 does not say how it is written; one bare hexadecimal digit. DESIGN CHOICE, safe (log 31). -/
def asmNibble (n : BitVec 4) : String := hexDigit n

/-- The conventional notation of an instruction (R76). -/
def asm (p : Config.Params) : Instr → String
  | .cls => "CLS"
  | .ret => "RET"
  | .jpAddr nnn => "JP " ++ asmAddr nnn
  | .callAddr nnn => "CALL " ++ asmAddr nnn
  | .seVxByte x kk => "SE " ++ asmReg x ++ ", " ++ asmByte kk
  | .sneVxByte x kk => "SNE " ++ asmReg x ++ ", " ++ asmByte kk
  | .seVxVy x y => "SE " ++ asmRegs x y
  | .ldVxByte x kk => "LD " ++ asmReg x ++ ", " ++ asmByte kk
  | .addVxByte x kk => "ADD " ++ asmReg x ++ ", " ++ asmByte kk
  | .ldVxVy x y => "LD " ++ asmRegs x y
  | .orVxVy x y => "OR " ++ asmRegs x y
  | .andVxVy x y => "AND " ++ asmRegs x y
  | .xorVxVy x y => "XOR " ++ asmRegs x y
  | .addVxVy x y => "ADD " ++ asmRegs x y
  | .subVxVy x y => "SUB " ++ asmRegs x y
  | .shrVxVy x y => "SHR " ++ asmRegs x y
  | .subnVxVy x y => "SUBN " ++ asmRegs x y
  | .shlVxVy x y => "SHL " ++ asmRegs x y
  | .sneVxVy x y => "SNE " ++ asmRegs x y
  | .ldIAddr nnn => "LD I, " ++ asmAddr nnn
  | .jpV0Addr nnn => "JP " ++ asmJumpReg p nnn ++ ", " ++ asmAddr nnn
  | .rndVxByte x kk => "RND " ++ asmReg x ++ ", " ++ asmByte kk
  | .drwVxVyNibble x y n => "DRW " ++ asmRegs x y ++ ", " ++ asmNibble n
  | .skpVx x => "SKP " ++ asmReg x
  | .sknpVx x => "SKNP " ++ asmReg x
  | .ldVxDT x => "LD " ++ asmReg x ++ ", DT"
  | .ldVxK x => "LD " ++ asmReg x ++ ", K"
  | .ldDTVx x => "LD DT, " ++ asmReg x
  | .ldSTVx x => "LD ST, " ++ asmReg x
  | .addIVx x => "ADD I, " ++ asmReg x
  | .ldFVx x => "LD F, " ++ asmReg x
  | .ldBVx x => "LD B, " ++ asmReg x
  | .ldMemVx x => "LD [I], " ++ asmReg x
  | .ldVxMem x => "LD " ++ asmReg x ++ ", [I]"

end Sys2Proof
end

