-- ==== Sys2Proof/Machine/Defaults.lean ====
section
/-! DEFINITION. The values this hardware takes for the parameters of 00_scope.md R9, the font among them. -/

namespace Sys2Proof.Config

/-- The standard glyphs of the digits 0 to 7 (20_memory.md R52). UNVERIFIED, unsafe (log 9). -/
def fontLow : List Byte :=
  [0xF0, 0x90, 0x90, 0x90, 0xF0] ++ [0x20, 0x60, 0x20, 0x20, 0x70] ++
  [0xF0, 0x10, 0xF0, 0x80, 0xF0] ++ [0xF0, 0x10, 0xF0, 0x10, 0xF0] ++
  [0x90, 0x90, 0xF0, 0x10, 0x10] ++ [0xF0, 0x80, 0xF0, 0x10, 0xF0] ++
  [0xF0, 0x80, 0xF0, 0x90, 0xF0] ++ [0xF0, 0x10, 0x20, 0x40, 0x40]

/-- The standard glyphs of the digits 8 to F (20_memory.md R52). UNVERIFIED, unsafe (log 9). -/
def fontHigh : List Byte :=
  [0xF0, 0x90, 0xF0, 0x90, 0xF0] ++ [0xF0, 0x90, 0xF0, 0x10, 0xF0] ++
  [0xF0, 0x90, 0xF0, 0x90, 0x90] ++ [0xE0, 0x90, 0xE0, 0x90, 0xE0] ++
  [0xF0, 0x80, 0x80, 0x80, 0xF0] ++ [0xE0, 0x90, 0x90, 0x90, 0xE0] ++
  [0xF0, 0x80, 0xF0, 0x80, 0xF0] ++ [0xF0, 0x80, 0xF0, 0x80, 0x80]

/-- `FONT_DATA` (R9, R52): the table an instance has by default. -/
def fontDefault : Vector Byte 80 := ⟨⟨fontLow ++ fontHigh⟩, rfl⟩

/-- The values this hardware takes (R9). -/
def Params.default : Params where
  shiftSource := .vx
  logicVfReset := false
  loadstoreIIncrement := false
  jumpOffsetReg := .v0
  keyIndexMask := 0xF
  fontDigitMask := 0x0F
  keyWaitSelect := ⟨.level, .lowest⟩
  fontBase := 0
  fontData := fontDefault

end Sys2Proof.Config
end

