-- ==== Sys2Proof/Machine/State.lean ====
section
/-! DEFINITION. The state of one core instance (10_state.md R20), what a step returns (40_step_cycle.md R79, R92), and
the state right after reset (70_reset_and_hazards.md R151). -/

namespace Sys2Proof.Machine

open Sys2Proof.Config (Params)

/-- The step errors (R79, R92, R130; R18 calls them faults). The core is not halted by one (R87): the step answers a
next state and returns the error in `State.lastResult` (log 1). -/
inductive Fault where
  /-- Raised by a fetch whose second or first byte lies past 0xFFF, and by DXYN, FX33, FX55 and FX65 whose range runs
  past 0xFFF; it carries the first address out of range. Safe: the access is not performed (20_memory.md R47). -/
  | addressOutOfRange (a : Nat)
  /-- Raised by 2NNN when SP = 16. Safe: nothing is pushed (R96). -/
  | stackOverflow
  /-- Raised by 00EE when SP = 0. Safe: nothing is popped (R94). -/
  | stackUnderflow
  deriving DecidableEq, Repr

/-- Why the model has no move. -/
inductive Refusal where
  /-- Raised by an arm of `exec` whose instruction has no meaning yet; no arm raises it. Safe: the run stops. -/
  | notModelled (mnemonic : String)
  deriving DecidableEq, Repr

/-- The outcomes of a step that is no error (R79, R92). -/
inductive StepOutcome where
  /-- The instruction, or the resolving key-wait poll, completed (R85). -/
  | executed
  /-- FX0A's own step, or a poll that found no key (R80, R126). -/
  | awaitingKey
  /-- The word matches no row of the opcode table (R84). -/
  | invalidOpcode (w : Word)
  deriving DecidableEq, Repr

/-- What a step returns to the host: an outcome or an error (R79). -/
inductive StepResult where
  | outcome (o : StepOutcome)
  | error (e : Fault)
  deriving DecidableEq, Repr

/-- The bytes of memory that differ from the reset image, by rising address (log 7). -/
abbrev Memory := List Host.Cell

/-- The sixteen V registers (R22). -/
abbrev RegFile := Vector Byte 16

/-- The frame buffer, `FB[x][y]`: column x of 64, row y of 32 (R38). -/
abbrev FrameBuffer := Vector (Vector Bool 32) 64

/-- The state record of R20, and four fields of the model's own: `params` (log 3), `draws` (log 4), `lastResult` (log 2)
and `seenKeys` (log 30). -/
structure State where
  /-- The parameters of the instance (00_scope.md R9); no operation writes them (R41, R157). -/
  params : Params
  /-- `M` (R42, R46). -/
  mem : Memory
  /-- `V0` to `VF` (R22). -/
  v : RegFile
  /-- `I` (R29). -/
  i : Word
  /-- `PC` (R31). -/
  pc : Word
  /-- `S[0..15]` (R34). UNVERIFIED, unsafe (log 22). -/
  stack : Vector Word 16
  /-- `SP`, 0 to 16 (R34). -/
  sp : Fin 17
  /-- `DT` (R37). -/
  dt : Byte
  /-- `ST` (R37). -/
  st : Byte
  /-- `FB` (R38). -/
  fb : FrameBuffer
  /-- `K[0..15]` (R39). -/
  keys : Vector Bool 16
  /-- `AW` (R40). -/
  aw : Option Reg
  /-- The keys as the key wait last saw them; only an edge-sensitive `KEY_WAIT_SELECT` reads or writes it. -/
  seenKeys : Vector Bool 16
  /-- How many bytes RAND has given so far. -/
  draws : Nat
  /-- What the latest step returned; none before any step. -/
  lastResult : Option StepResult
  deriving DecidableEq, Repr

/-- The state `init` gives an instance with the parameters `p` whose oracle has given `draws` bytes (R151, R157). -/
def State.init (p : Params) (draws : Nat) : State where
  params := p
  mem := []
  v := Vector.replicate 16 0
  i := 0
  pc := 0
  stack := Vector.replicate 16 0
  sp := 0
  dt := 0
  st := 0
  fb := Vector.replicate 64 (Vector.replicate 32 false)
  keys := Vector.replicate 16 false
  aw := none
  seenKeys := Vector.replicate 16 false
  draws := draws
  lastResult := none

/-- The machine right after reset: `init` with the parameters this hardware takes (R9, R151). DESIGN CHOICE, safe
(log 5): reset is `init`, not a load. -/
def State.reset : State := State.init Params.default 0

end Sys2Proof.Machine
end

