-- ==== Sys2Proof/Machine/Ops.lean ====
section
/-! DEFINITION. The named operations over memory and registers: memory cells (20_memory.md), the primitives of
00_scope.md R12, the stack (10_state.md R35), the frame buffer (43_display.md R116), how a step ends
(40_step_cycle.md R84 to R86), fetch and advance (R81, R82), and the key-wait poll (R80). An error is no trap
(60_exceptions.md R133): `raise` is the one operation that ends a step with one, and there is no return from it. -/

namespace Sys2Proof.Machine

open Sys2Proof.Config (Params)

/-! ## Memory cells -/

/-- What an unlisted address reads as: the reset contents, the font at `FONT_BASE` and 0x00 elsewhere (R42, R151).
DEDUCED, safe (log 7). -/
def Memory.unlisted (p : Params) (a : Nat) : Byte :=
  if h : p.fontBase.val ≤ a ∧ a - p.fontBase.val < 80 then p.fontData[a - p.fontBase.val] else 0

/-- The byte listed at an address, if one is. -/
def Memory.lookup (a : Nat) : Memory → Option Byte
  | [] => none
  | c :: m => if a = c.1 then some c.2 else Memory.lookup a m

/-- The byte at an address. -/
def Memory.read (p : Params) (m : Memory) (a : Nat) : Byte :=
  (Memory.lookup a m).getD (Memory.unlisted p a)

/-- List a byte at its place in the rising order. -/
def Memory.insert (a : Nat) (b : Byte) : Memory → Memory
  | [] => [(a, b)]
  | c :: m =>
    if a < c.1 then (a, b) :: c :: m
    else if a = c.1 then (a, b) :: m
    else c :: Memory.insert a b m

/-- Take every entry of an address away. -/
def Memory.erase (a : Nat) : Memory → Memory
  | [] => []
  | c :: m => if a = c.1 then Memory.erase a m else c :: Memory.erase a m

/-- Store a byte, keeping the canonical form. -/
def Memory.write (p : Params) (m : Memory) (a : Nat) (b : Byte) : Memory :=
  if b = Memory.unlisted p a then Memory.erase a m else Memory.insert a b m

/-- Do the addresses rise strictly from `lo` on, below 0x1000, and does each entry differ from what its address reads as
unlisted? -/
def Memory.wfFrom (p : Params) (lo : Nat) : Memory → Bool
  | [] => true
  | c :: m =>
    decide (lo ≤ c.1) && decide (c.1 < Config.memSize) && decide (c.2 ≠ Memory.unlisted p c.1) &&
      Memory.wfFrom p (c.1 + 1) m

/-- The canonical form of memory (log 7). -/
def Memory.wf (p : Params) (m : Memory) : Bool := Memory.wfFrom p 0 m

/-! ## Bytes of the state's memory -/

/-- `M[a]` (R11). -/
def State.readByte (s : State) (a : Nat) : Byte := Memory.read s.params s.mem a

/-- `M[a] <- b` (R11). -/
def State.writeByte (s : State) (a : Nat) (b : Byte) : State :=
  { s with mem := Memory.write s.params s.mem a b }

/-- `MemRead(a, 1)` (R12): an address past 0xFFF is not read (R47). -/
def memRead (s : State) (a : Nat) : Except Fault Byte :=
  if a ≤ 0xFFF then .ok (s.readByte a) else .error (.addressOutOfRange a)

/-- `MemWrite(a, 1, b)` (R12): an address past 0xFFF is not written (R47), every other is (R51). UNVERIFIED, unsafe
(log 21). -/
def memWrite (s : State) (a : Nat) (b : Byte) : Except Fault State :=
  if a ≤ 0xFFF then .ok (s.writeByte a b) else .error (.addressOutOfRange a)

/-- The `n` bytes from address `a` on (R48). -/
def State.readBytes (s : State) (a : Nat) : Nat → List Byte
  | 0 => []
  | n + 1 => s.readByte a :: State.readBytes s (a + 1) n

/-- Store bytes at consecutive addresses from `a` on, lowest address first (R48, R54). -/
def State.writeBytes (s : State) (a : Nat) : List Byte → State
  | [] => s
  | b :: bs => State.writeBytes (s.writeByte a b) (a + 1) bs

/-! ## Registers -/

/-- `V[x]` (R11). -/
def State.readV (s : State) (x : Reg) : Byte := s.v[x.val]

/-- `V[x] <- b` (R11). -/
def State.writeV (s : State) (x : Reg) (b : Byte) : State := { s with v := s.v.set x.val b }

/-- `V[x] <- b` and then `V[15] <- flag`: the flag is written last (10_state.md R27). UNVERIFIED, unsafe (log 11). -/
def State.writeVFlag (s : State) (x : Reg) (b flag : Byte) : State := (s.writeV x b).writeV Reg.vf flag

/-- `V0` to `Vx`, in order (44_index_memory.md R121). -/
def State.regsUpTo (s : State) (x : Reg) : List Byte := s.v.toList.take (x.val + 1)

/-- Put bytes into the registers from index `i` on. -/
def RegFile.load (v : RegFile) (i : Nat) : List Byte → RegFile
  | [] => v
  | b :: bs => RegFile.load (if h : i < 16 then v.set i b h else v) (i + 1) bs

/-- `PC <- n`, reduced modulo 0x1000 (10_state.md R31). UNVERIFIED, unsafe (log 16). -/
def State.writePC (s : State) (n : Nat) : State := { s with pc := BitVec.ofNat 16 (n % 0x1000) }

/-- `I <- n`, reduced modulo 0x1000 (10_state.md R29). UNVERIFIED, unsafe (log 16). -/
def State.writeI (s : State) (n : Nat) : State := { s with i := BitVec.ofNat 16 (n % 0x1000) }

/-- `PC <- (PC + 2) mod 0x1000`: the advance (40_step_cycle.md R82), and a skip's further 2 (41_control_flow.md R93). -/
def State.addTwo (s : State) : State := s.writePC (s.pc.toNat + 2)

/-- A conditional skip (R93). -/
def State.skipIf (s : State) (c : Bool) : State := if c then s.addTwo else s

/-- `Rand8()` (R12): the next byte of the oracle, and the state that has drawn it (R114). -/
def drawByte (s : State) : Byte × State := (Config.rand s.draws, { s with draws := s.draws + 1 })

/-! ## The return stack (10_state.md R35) -/

/-- `push(a)`. -/
def push (s : State) (a : Word) : Except Fault State :=
  if h : s.sp.val < 16 then
    .ok { s with stack := s.stack.set s.sp.val a, sp := ⟨s.sp.val + 1, Nat.succ_lt_succ h⟩ }
  else .error .stackOverflow

/-- `pop()`: the slot keeps its value (R36). -/
def pop (s : State) : Except Fault (Word × State) :=
  if h : 0 < s.sp.val then
    have hlt : s.sp.val - 1 < 16 := by have := s.sp.isLt; omega
    .ok (s.stack[s.sp.val - 1], { s with sp := ⟨s.sp.val - 1, Nat.lt_succ_of_lt hlt⟩ })
  else .error .stackUnderflow

/-! ## The frame buffer (43_display.md R116) -/

/-- `FB[x][y]`. -/
def FrameBuffer.get (fb : FrameBuffer) (x : Fin 64) (y : Fin 32) : Bool := fb[x.val][y.val]

/-- `FB[x][y] <- b`. -/
def FrameBuffer.put (fb : FrameBuffer) (x : Fin 64) (y : Fin 32) (b : Bool) : FrameBuffer :=
  fb.set x.val (fb[x.val].set y.val b)

/-- The all-zero frame buffer (R115, R151). -/
def FrameBuffer.blank : FrameBuffer := Vector.replicate 64 (Vector.replicate 32 false)

/-- `n mod 64`, a column. -/
def column (n : Nat) : Fin 64 := ⟨n % 64, Nat.mod_lt n (by decide)⟩

/-- `n mod 32`, a row. -/
def row (n : Nat) : Fin 32 := ⟨n % 32, Nat.mod_lt n (by decide)⟩

/-- XOR a 1 into a pixel: the new frame buffer, and whether any pixel so far went from 1 to 0 (R116). -/
def flipPixel (acc : FrameBuffer × Bool) (x : Fin 64) (y : Fin 32) : FrameBuffer × Bool :=
  (acc.1.put x y (!acc.1.get x y), acc.2 || acc.1.get x y)

/-- Draw the columns `c`, `c + 1`, … of one sprite row; `n` of its 8 bits are left. Bit 7 is the leftmost pixel, a 0 bit
leaves its pixel (R116). UNVERIFIED, unsafe (log 13). -/
def drawBits (bits : Byte) (x0 : Nat) (y : Fin 32) : Nat → FrameBuffer × Bool → FrameBuffer × Bool
  | 0, acc => acc
  | n + 1, acc =>
    drawBits bits x0 y n (if bits.getLsbD n then flipPixel acc (column (x0 + (7 - n))) y else acc)

/-- Draw the sprite rows from row `r` on (R116). -/
def drawRows (x0 y0 : Nat) : Nat → List Byte → FrameBuffer × Bool → FrameBuffer × Bool
  | _, [], acc => acc
  | r, bits :: rest, acc => drawRows x0 y0 (r + 1) rest (drawBits bits x0 (row (y0 + r)) 8 acc)

/-- Draw a whole sprite on a frame buffer: the new frame buffer, and whether a pixel went from 1 to 0 (R116). -/
def drawSprite (fb : FrameBuffer) (x0 y0 : Nat) (rows : List Byte) : FrameBuffer × Bool :=
  drawRows x0 y0 0 rows (fb, false)

/-! ## How a step ends -/

/-- The step returns `r`; the core goes on from `s` (R79, R87). DESIGN CHOICE, safe (log 2). -/
def endStep (r : StepResult) (s : State) : Host.Outcome State Fault Refusal := .next { s with lastResult := some r }

/-- The instruction completed (R85). -/
def executed (s : State) : Host.Outcome State Fault Refusal := endStep (.outcome .executed) s

/-- The step returns `AwaitingKey` (R80, R126). -/
def awaiting (s : State) : Host.Outcome State Fault Refusal := endStep (.outcome .awaitingKey) s

/-- The step returns `InvalidOpcode(w)`; nothing else changes (R84). -/
def invalidOpcode (w : Word) (s : State) : Host.Outcome State Fault Refusal :=
  endStep (.outcome (.invalidOpcode w)) s

/-- `raise E` (R12): the step returns the error and the core is left as `s` (R86, R130); it is no trap and no halt
(R87, R133). DESIGN CHOICE, safe (log 1). -/
def raise (e : Fault) (s : State) : Host.Outcome State Fault Refusal := endStep (.error e) s

/-- The check that stands before every multi-byte access of an instruction: the `count` bytes from `first` on must not
run past 0xFFF, or the instruction raises `AddressOutOfRange(0x1000)` with nothing written (R86, R130).
UNVERIFIED, unsafe (log 17). -/
def checkRange (first count : Nat) (s : State) (go : Host.Outcome State Fault Refusal) :
    Host.Outcome State Fault Refusal :=
  if 0 < count ∧ first + count - 1 > 0xFFF then raise (.addressOutOfRange 0x1000) s else go

/-! ## Fetch -/

/-- Fetch the opcode: `M[PC]` and then `M[PC + 1]`, big-endian; PC + 1 is not reduced (40_step_cycle.md R81).
UNVERIFIED, unsafe (log 16, log 19). With PC above 0xFFF, which no run reaches, DESIGN CHOICE, safe (log 28). -/
def fetch (s : State) : Except Fault Word :=
  match memRead s s.pc.toNat with
  | .error e => .error e
  | .ok hi =>
    match memRead s (s.pc.toNat + 1) with
    | .error e => .error e
    | .ok lo => .ok (wordOfBytes hi lo)

/-! ## The key-wait poll (40_step_cycle.md R80) -/

/-- The key indices, least first. -/
def allKeys : List Reg := [0, 1, 2, 3, 4, 5, 6, 7] ++ [8, 9, 10, 11, 12, 13, 14, 15]

/-- `K[k]` (R11). -/
def State.key (s : State) (k : Reg) : Bool := s.keys[k.val]

/-- Does the poll count the key? Any pressed key when `KEY_WAIT_SELECT` is level-sensitive; only a newly pressed one when
it is edge-sensitive (log 30). UNVERIFIED, unsafe (log 15). -/
def State.countsKey (s : State) (k : Reg) : Bool :=
  match s.params.keyWaitSelect.sense with
  | .level => s.key k
  | .edge => s.key k && !s.seenKeys[k.val]

/-- The key indices in the order a poll tries them. -/
def keysInOrder : Config.KeyOrder → List Reg
  | .lowest => allKeys
  | .highest => allKeys.reverse

/-- The key a poll takes (`KEY_WAIT_SELECT`, R9): by default the least pressed one. UNVERIFIED, unsafe (log 15). -/
def selectKey (s : State) : Option Reg :=
  (keysInOrder s.params.keyWaitSelect.order).find? fun k => s.countsKey k

/-- The wait looks at the keys: an edge-sensitive one remembers them, a level-sensitive one changes nothing (R80;
log 30). -/
def State.lookAtKeys (s : State) : State :=
  match s.params.keyWaitSelect.sense with
  | .level => s
  | .edge => { s with seenKeys := s.keys }

/-- `keywait_poll(x)`: it reads K; the index of the key it takes goes to `V[x]` and the wait ends (R80). -/
def keywaitPoll (x : Reg) (s : State) : Host.Outcome State Fault Refusal :=
  match selectKey s with
  | some k => executed { s.writeV x (BitVec.ofNat 8 k.val) with aw := none }
  | none => awaiting s.lookAtKeys

end Sys2Proof.Machine
end

