-- ==== Sys2Proof/Machine/Flags.lean ====
section
/-! DEFINITION. The flag computations: VF is the only flag (10_state.md R26, R28), and a flag value is exactly 0x00 or
0x01 (42_register_alu.md R102). -/

namespace Sys2Proof.Machine

/-- A flag value. -/
def flagByte (c : Bool) : Byte := if c then 1 else 0

/-- The carry out of bit 7 of a sum (R109). -/
def carryFlag (a b : Byte) : Byte := flagByte (decide (a.toNat + b.toNat > 255))

/-- Not-borrow of `a - b`: 1 when `a ≥ b` (R110, R112). UNVERIFIED, unsafe (log 10). -/
def notBorrowFlag (a b : Byte) : Byte := flagByte (decide (b.toNat ≤ a.toNat))

/-- The bit a right shift by one moves out (R111). -/
def lowBitFlag (src : Byte) : Byte := flagByte (src.getLsbD 0)

/-- The bit a left shift by one moves out (R113). -/
def highBitFlag (src : Byte) : Byte := flagByte (src.getLsbD 7)

/-- VF after 8XY1, 8XY2 and 8XY3: set to 0 only when `LOGIC_VF_RESET` is set (R106 to R108). -/
def State.afterLogic (s : State) : State := if s.params.logicVfReset then s.writeV Reg.vf 0 else s

end Sys2Proof.Machine
end

