-- ==== Sys2Proof/Machine/Operands.lean ====
section
/-! DEFINITION. The operand forms: addresses and immediates, and the operands that a parameter or a mask selects
(00_scope.md R9). -/

namespace Sys2Proof.Machine

/-- `NNN` as a number, for a write to PC or I (30_encoding.md R67). -/
def addrOperand (nnn : BitVec 12) : Nat := nnn.toNat

/-- The value 8XY6 and 8XYE shift: V[X], or V[Y] when `SHIFT_SOURCE` is VY (42_register_alu.md R111, R113). -/
def shiftOperand (x y : Reg) (s : State) : Byte :=
  match s.params.shiftSource with
  | .vx => s.readV x
  | .vy => s.readV y

/-- The value BNNN adds: V[0], or V[X] with X = bits 11:8 when `JUMP_OFFSET_REG` is VX (41_control_flow.md R97). -/
def jumpOffset (nnn : BitVec 12) (s : State) : Byte :=
  match s.params.jumpOffsetReg with
  | .v0 => s.readV 0
  | .vx => s.readV (regOfBits (nnn.extractLsb' 8 4))

/-- A byte under a mask within the low nibble, as an index: it never faults (93_implementation_defined.md U12). -/
def maskedIndex (mask : BitVec 4) (b : Byte) : Reg :=
  ⟨(b &&& mask.setWidth 8).toNat, Nat.lt_of_le_of_lt
    (by rw [BitVec.toNat_and, BitVec.toNat_setWidth_of_le (by decide)]; exact Nat.and_le_right) mask.isLt⟩

/-- The key EX9E and EXA1 test: `V[X] & KEY_INDEX_MASK` (45_timers_keypad.md R123, R124). UNVERIFIED, unsafe (log 14). -/
def keyOperand (x : Reg) (s : State) : Reg := maskedIndex s.params.keyIndexMask (s.readV x)

/-- The digit FX29 takes: `V[X] & FONT_DIGIT_MASK` (43_display.md R117). UNVERIFIED, unsafe (log 14). -/
def digitOperand (x : Reg) (s : State) : Nat := (s.readV x &&& s.params.fontDigitMask).toNat

/-- The address of the glyph FX29 points I at (R117). -/
def glyphAddr (x : Reg) (s : State) : Nat := s.params.fontBase.val + 5 * digitOperand x s

/-- The first address of a transfer through I (44_index_memory.md R120 to R122, 43_display.md R116). -/
def indexAddr (s : State) : Nat := s.i.toNat

/-- The hundreds, tens and ones of a byte, most significant first (R120). UNVERIFIED, unsafe (log 12). -/
def bcdDigits (b : Byte) : List Byte :=
  [BitVec.ofNat 8 (b.toNat / 100), BitVec.ofNat 8 (b.toNat / 10 % 10), BitVec.ofNat 8 (b.toNat % 10)]

/-- I after a block transfer up to VX: moved past the block only when `LOADSTORE_I_INCREMENT` is set (R121, R122). -/
def State.afterBlock (s : State) (x : Reg) : State :=
  if s.params.loadstoreIIncrement then s.writeI (indexAddr s + x.val + 1) else s

end Sys2Proof.Machine
end

