-- ==== Sys2Proof/Machine/Alu.lean ====
section
/-! DEFINITION. Register load, immediate add, the 8-group and the masked random byte (42_register_alu.md R102 to R114).
Operands are read before any write; VX is written first and VF last. -/

namespace Sys2Proof.Machine

/-- 6XKK `LD Vx, byte` (R103). -/
def execLdVxByte (x : Reg) (kk : Byte) (s : State) : Host.Outcome State Fault Refusal := executed (s.writeV x kk)

/-- 7XKK `ADD Vx, byte` (R104): no flag. -/
def execAddVxByte (x : Reg) (kk : Byte) (s : State) : Host.Outcome State Fault Refusal :=
  executed (s.writeV x (s.readV x + kk))

/-- 8XY0 `LD Vx, Vy` (R105). -/
def execLdVxVy (x y : Reg) (s : State) : Host.Outcome State Fault Refusal := executed (s.writeV x (s.readV y))

/-- 8XY1 `OR Vx, Vy` (R106). -/
def execOrVxVy (x y : Reg) (s : State) : Host.Outcome State Fault Refusal :=
  executed (s.writeV x (s.readV x ||| s.readV y)).afterLogic

/-- 8XY2 `AND Vx, Vy` (R107). -/
def execAndVxVy (x y : Reg) (s : State) : Host.Outcome State Fault Refusal :=
  executed (s.writeV x (s.readV x &&& s.readV y)).afterLogic

/-- 8XY3 `XOR Vx, Vy` (R108). -/
def execXorVxVy (x y : Reg) (s : State) : Host.Outcome State Fault Refusal :=
  executed (s.writeV x (s.readV x ^^^ s.readV y)).afterLogic

/-- 8XY4 `ADD Vx, Vy` (R109). -/
def execAddVxVy (x y : Reg) (s : State) : Host.Outcome State Fault Refusal :=
  executed (s.writeVFlag x (s.readV x + s.readV y) (carryFlag (s.readV x) (s.readV y)))

/-- 8XY5 `SUB Vx, Vy` (R110). -/
def execSubVxVy (x y : Reg) (s : State) : Host.Outcome State Fault Refusal :=
  executed (s.writeVFlag x (s.readV x - s.readV y) (notBorrowFlag (s.readV x) (s.readV y)))

/-- 8XY6 `SHR Vx, Vy` (R111). -/
def execShrVxVy (x y : Reg) (s : State) : Host.Outcome State Fault Refusal :=
  executed (s.writeVFlag x (shiftOperand x y s >>> 1) (lowBitFlag (shiftOperand x y s)))

/-- 8XY7 `SUBN Vx, Vy` (R112). -/
def execSubnVxVy (x y : Reg) (s : State) : Host.Outcome State Fault Refusal :=
  executed (s.writeVFlag x (s.readV y - s.readV x) (notBorrowFlag (s.readV y) (s.readV x)))

/-- 8XYE `SHL Vx, Vy` (R113). -/
def execShlVxVy (x y : Reg) (s : State) : Host.Outcome State Fault Refusal :=
  executed (s.writeVFlag x (shiftOperand x y s <<< 1) (highBitFlag (shiftOperand x y s)))

/-- CXKK `RND Vx, byte` (R114): one fresh byte of the oracle. -/
def execRndVxByte (x : Reg) (kk : Byte) (s : State) : Host.Outcome State Fault Refusal :=
  executed ((drawByte s).2.writeV x ((drawByte s).1 &&& kk))

end Sys2Proof.Machine
end

