-- ==== Sys2Proof/Machine/ControlFlow.lean ====
section
/-! DEFINITION. Return, jump, call, jump with offset and the skips on registers (41_control_flow.md R93 to R101). The
state a meaning takes has PC already advanced (R82). -/

namespace Sys2Proof.Machine

/-- 00EE `RET` (R94). -/
def execRet (s : State) : Host.Outcome State Fault Refusal :=
  match pop s with
  | .error e => raise e s
  | .ok (a, t) => executed (t.writePC a.toNat)

/-- 1NNN `JP addr` (R95). -/
def execJpAddr (nnn : BitVec 12) (s : State) : Host.Outcome State Fault Refusal :=
  executed (s.writePC (addrOperand nnn))

/-- 2NNN `CALL addr` (R96): the pushed value is the address after the call. -/
def execCallAddr (nnn : BitVec 12) (s : State) : Host.Outcome State Fault Refusal :=
  match push s s.pc with
  | .error e => raise e s
  | .ok t => executed (t.writePC (addrOperand nnn))

/-- BNNN `JP V0, addr` (R97). -/
def execJpV0Addr (nnn : BitVec 12) (s : State) : Host.Outcome State Fault Refusal :=
  executed (s.writePC (addrOperand nnn + (jumpOffset nnn s).toNat))

/-- 3XKK `SE Vx, byte` (R98). -/
def execSeVxByte (x : Reg) (kk : Byte) (s : State) : Host.Outcome State Fault Refusal :=
  executed (s.skipIf (decide (s.readV x = kk)))

/-- 4XKK `SNE Vx, byte` (R99). -/
def execSneVxByte (x : Reg) (kk : Byte) (s : State) : Host.Outcome State Fault Refusal :=
  executed (s.skipIf (decide (s.readV x ≠ kk)))

/-- 5XY0 `SE Vx, Vy` (R100). -/
def execSeVxVy (x y : Reg) (s : State) : Host.Outcome State Fault Refusal :=
  executed (s.skipIf (decide (s.readV x = s.readV y)))

/-- 9XY0 `SNE Vx, Vy` (R101). -/
def execSneVxVy (x y : Reg) (s : State) : Host.Outcome State Fault Refusal :=
  executed (s.skipIf (decide (s.readV x ≠ s.readV y)))

end Sys2Proof.Machine
end

