-- ==== Sys2Proof/Machine/Display.lean ====
section
/-! DEFINITION. Clear, draw, and the font glyph address (43_display.md R115 to R117). -/

namespace Sys2Proof.Machine

/-- 00E0 `CLS` (R115). -/
def execCls (s : State) : Host.Outcome State Fault Refusal := executed { s with fb := FrameBuffer.blank }

/-- What DXYN draws: the frame buffer and the collision it leaves, every operand read before any write (R116, R161). -/
def spriteResult (x y : Reg) (n : BitVec 4) (s : State) : FrameBuffer × Bool :=
  drawSprite s.fb (s.readV x).toNat (s.readV y).toNat (s.readBytes (indexAddr s) n.toNat)

/-- DXYN `DRW Vx, Vy, nibble` (R116): the range of the sprite is checked first, VF is written last. -/
def execDrwVxVyNibble (x y : Reg) (n : BitVec 4) (s : State) : Host.Outcome State Fault Refusal :=
  checkRange (indexAddr s) n.toNat s
    (executed ({ s with fb := (spriteResult x y n s).1 }.writeV Reg.vf (flagByte (spriteResult x y n s).2)))

/-- FX29 `LD F, Vx` (R117). -/
def execLdFVx (x : Reg) (s : State) : Host.Outcome State Fault Refusal := executed (s.writeI (glyphAddr x s))

end Sys2Proof.Machine
end

