-- ==== Sys2Proof/Machine/IndexMemory.lean ====
section
/-! DEFINITION. The address register and the transfers through it (44_index_memory.md R118 to R122). Each checks its
whole range before it writes anything (40_step_cycle.md R86). -/

namespace Sys2Proof.Machine

/-- ANNN `LD I, addr` (R118). -/
def execLdIAddr (nnn : BitVec 12) (s : State) : Host.Outcome State Fault Refusal :=
  executed (s.writeI (addrOperand nnn))

/-- FX1E `ADD I, Vx` (R119): VF is not written. UNVERIFIED, unsafe (log 20). -/
def execAddIVx (x : Reg) (s : State) : Host.Outcome State Fault Refusal :=
  executed (s.writeI (s.i.toNat + (s.readV x).toNat))

/-- FX33 `LD B, Vx` (R120). -/
def execLdBVx (x : Reg) (s : State) : Host.Outcome State Fault Refusal :=
  checkRange (indexAddr s) 3 s (executed (s.writeBytes (indexAddr s) (bcdDigits (s.readV x))))

/-- FX55 `LD [I], Vx` (R121). -/
def execLdMemVx (x : Reg) (s : State) : Host.Outcome State Fault Refusal :=
  checkRange (indexAddr s) (x.val + 1) s
    (executed ((s.writeBytes (indexAddr s) (s.regsUpTo x)).afterBlock x))

/-- FX65 `LD Vx, [I]` (R122). -/
def execLdVxMem (x : Reg) (s : State) : Host.Outcome State Fault Refusal :=
  checkRange (indexAddr s) (x.val + 1) s
    (executed ({ s with v := RegFile.load s.v 0 (s.readBytes (indexAddr s) (x.val + 1)) }.afterBlock x))

end Sys2Proof.Machine
end

