-- ==== Sys2Proof/Machine/TimersKeypad.lean ====
section
/-! DEFINITION. Keypad skips, the timer registers, and the key wait (45_timers_keypad.md R123 to R128). -/

namespace Sys2Proof.Machine

/-- EX9E `SKP Vx` (R123). -/
def execSkpVx (x : Reg) (s : State) : Host.Outcome State Fault Refusal :=
  executed (s.skipIf (s.key (keyOperand x s)))

/-- EXA1 `SKNP Vx` (R124). -/
def execSknpVx (x : Reg) (s : State) : Host.Outcome State Fault Refusal :=
  executed (s.skipIf (!s.key (keyOperand x s)))

/-- FX07 `LD Vx, DT` (R125). -/
def execLdVxDT (x : Reg) (s : State) : Host.Outcome State Fault Refusal := executed (s.writeV x s.dt)

/-- FX0A `LD Vx, K` (R126): this step does not poll; the steps after it do (R80). -/
def execLdVxK (x : Reg) (s : State) : Host.Outcome State Fault Refusal := awaiting ({ s with aw := some x } : State).lookAtKeys

/-- FX15 `LD DT, Vx` (R127). -/
def execLdDTVx (x : Reg) (s : State) : Host.Outcome State Fault Refusal := executed { s with dt := s.readV x }

/-- FX18 `LD ST, Vx` (R128). -/
def execLdSTVx (x : Reg) (s : State) : Host.Outcome State Fault Refusal := executed { s with st := s.readV x }

end Sys2Proof.Machine
end

