-- ==== Sys2Proof/Machine/Cycle.lean ====
section
/-! DEFINITION. The step cycle (40_step_cycle.md R79), and where the host's probe places a word. -/

namespace Sys2Proof.Machine

/-- The key-wait test, fetch, advance, dispatch, in that order (R79, R91, R132). -/
def stepCycle (s : State) : Host.Outcome State Fault Refusal :=
  match s.aw with
  | some x => keywaitPoll x s
  | none =>
    match fetch s with
    | .error e => raise e s
    | .ok w =>
      match decode w with
      | none => invalidOpcode w s.addTwo
      | some i => exec i s.addTwo

/-- The state with PC where two bytes have room: PC itself below 0xFFF, else `LOAD_OFFSET_DEFAULT`. DESIGN CHOICE, safe
(log 6). -/
def withRoomAtPC (s : State) : State := if s.pc.toNat < 0xFFF then s else s.writePC Config.loadOffsetDefault

/-- Put the bytes of an instruction at PC and end a pending key wait, so that the next step fetches it. DESIGN CHOICE,
safe (log 6). -/
def placeBytes (s : State) (bytes : List Byte) : State :=
  { s.writeBytes s.pc.toNat bytes with aw := none }

end Sys2Proof.Machine
end

