-- ==== Sys2Proof/Machine/Step.lean ====
section
/-! DEFINITION. One step of the core (40_step_cycle.md R79), and the host's probe of one instruction. -/

namespace Sys2Proof.Machine

/-- `step()` (R79). -/
def step (s : State) : Host.Outcome State Fault Refusal := stepCycle s

/-- The state that fetches the instruction whose bits are `w` next (log 6). -/
def State.withFetchWord (s : State) (nbits w : Nat) : State :=
  placeBytes (withRoomAtPC s) (bytesOfWord (tableWord nbits w))

end Sys2Proof.Machine
end

