-- ==== Sys2Proof/Machine/HostOps.lean ====
section
/-! DEFINITION. The host operations (60_exceptions.md R134): init, load, step, tick_timers, set_key and the read-only
accessors. Each is atomic and runs strictly between other operations. DESIGN CHOICE, safe (log 23): they stand beside
`step`, which is the whole of Host.Core. -/

namespace Sys2Proof.Machine

/-- The errors of `load` (R129, R153). -/
inductive LoadError where
  /-- The offset is past 0xFFF; it carries the offset. -/
  | addressOutOfRange (a : Nat)
  /-- The bytes do not fit above the offset. -/
  | programTooLarge
  deriving DecidableEq, Repr

/-- What `snapshot()` copies (R141): V, I, PC, M, S, SP, DT, ST and AW. UNVERIFIED, unsafe (log 29). -/
structure Snapshot where
  v : RegFile
  i : Word
  pc : Word
  mem : List Byte
  stack : Vector Word 16
  sp : Fin 17
  dt : Byte
  st : Byte
  aw : Option Reg
  deriving DecidableEq, Repr

/-- The operations a host may issue (R134, R146). A load without an offset takes the default (R153). A key index outside
0..15 cannot be written down (R139). -/
inductive HostOp where
  | init
  | load (bytes : List Byte) (offset : Option Nat)
  | step
  | tickTimers
  | setKey (k : Reg) (pressed : Bool)
  | frameBuffer
  | soundTimer
  | snapshot
  deriving DecidableEq, Repr

/-- What an operation returns to the host. -/
inductive HostReply where
  /-- `init`, `tick_timers`, `set_key`: nothing. -/
  | nothing
  /-- A successful `load`. -/
  | loaded
  /-- A rejected `load`. -/
  | loadError (e : LoadError)
  /-- A step's outcome or error. -/
  | stepped (r : Option StepResult)
  /-- `frame_buffer()`. -/
  | frame (fb : FrameBuffer)
  /-- `sound_timer()`. -/
  | sound (st : Byte)
  /-- `snapshot()`. -/
  | snap (sn : Snapshot)
  deriving DecidableEq, Repr

/-- `init()` (70_reset_and_hazards.md R151). The parameters are the instance's, and the oracle is not reseeded (R157).
DEDUCED, safe (log 25). -/
def hostInit (s : State) : State := State.init s.params s.draws

/-- The offset of a load: the one given, else `LOAD_OFFSET_DEFAULT` (R153). -/
def loadOffset (offset : Option Nat) : Nat := offset.getD Config.loadOffsetDefault

/-- `load(bytes, offset)` (R153, R154): both checks come before any change; then the full reset, the bytes verbatim, and
PC at the offset. UNVERIFIED, unsafe (log 18). -/
def hostLoad (bytes : List Byte) (offset : Nat) (s : State) : Except LoadError State :=
  if offset > 0xFFF then .error (.addressOutOfRange offset)
  else if offset + bytes.length > Config.memSize then .error .programTooLarge
  else .ok { (hostInit s).writeBytes offset bytes with pc := BitVec.ofNat 16 offset }

/-- A timer after one tick: never below 0 (R138). -/
def tickDown (t : Byte) : Byte := if 0 < t.toNat then t - 1 else t

/-- `tick_timers()` (R138). There is no time: DESIGN CHOICE, safe (log 24). -/
def tickTimers (s : State) : State := { s with dt := tickDown s.dt, st := tickDown s.st }

/-- `set_key(index, pressed)` (R139). -/
def setKey (k : Reg) (pressed : Bool) (s : State) : State := { s with keys := s.keys.set k.val pressed }

/-- The sound output (10_state.md R44, R140). -/
def soundOn (s : State) : Bool := decide (s.st.toNat > 0)

/-- `snapshot()` (R141). -/
def snapshotOf (s : State) : Snapshot where
  v := s.v
  i := s.i
  pc := s.pc
  mem := s.readBytes 0 Config.memSize
  stack := s.stack
  sp := s.sp
  dt := s.dt
  st := s.st
  aw := s.aw

/-- One host operation: the state it leaves and what it returns (R134). -/
def hostOp (op : HostOp) (s : State) : Host.Outcome (State × HostReply) Fault Refusal :=
  match op with
  | .init => .next (hostInit s, .nothing)
  | .load bytes offset =>
    match hostLoad bytes (loadOffset offset) s with
    | .error e => .next (s, .loadError e)
    | .ok t => .next (t, .loaded)
  | .step =>
    match step s with
    | .next t => .next (t, .stepped t.lastResult)
    | .fault e => .fault e
    | .refused r => .refused r
  | .tickTimers => .next (tickTimers s, .nothing)
  | .setKey k pressed => .next (setKey k pressed s, .nothing)
  | .frameBuffer => .next (s, .frame s.fb)
  | .soundTimer => .next (s, .sound s.st)
  | .snapshot => .next (s, .snap (snapshotOf s))

/-- A sequence of host operations, in order (R146, R149). -/
def hostRun : List HostOp → State → Host.Outcome State Fault Refusal
  | [], s => .next s
  | op :: ops, s =>
    match hostOp op s with
    | .next (t, _) => hostRun ops t
    | .fault e => .fault e
    | .refused r => .refused r

end Sys2Proof.Machine
end

