-- ==== Sys2Proof/Safety.lean ====
section
/-! DEFINITION. What claims are stated in: the invariant of every reachable state (10_state.md R45), what a frame keeps,
and the end of a run (60_exceptions.md R148). -/

namespace Sys2Proof.Safety

open Sys2Proof.Machine

/-- The invariant of R45 (SP and the pixels are bounded by their types), with the canonical form of memory and the
bound R94 gives every stack slot. -/
abbrev StateInv (s : State) : Prop :=
  Memory.wf s.params s.mem = true ∧ s.pc.toNat ≤ 0xFFF ∧ s.i.toNat ≤ 0xFFF ∧
    ∀ j : Fin 16, s.stack[j.val].toNat ≤ 0xFFF

/-- The parts of the state a frame names (10_state.md R20, and the model's draw counter and seen keys). -/
inductive Part where
  | v
  | i
  | pc
  | stack
  | sp
  | dt
  | st
  | fb
  | keys
  | aw
  | seenKeys
  | mem
  | draws
  deriving DecidableEq, Repr

/-- `t` agrees with `s` on every part not listed in `changed`: every register, every byte of memory, every other field;
the parameters always agree. What a step returned (`lastResult`) is no part. -/
structure KeepsAllBut (changed : List Part) (s t : State) : Prop where
  params : t.params = s.params
  v : .v ∉ changed → ∀ x : Reg, t.readV x = s.readV x
  i : .i ∉ changed → t.i = s.i
  pc : .pc ∉ changed → t.pc = s.pc
  stack : .stack ∉ changed → ∀ j : Fin 16, t.stack[j.val] = s.stack[j.val]
  sp : .sp ∉ changed → t.sp = s.sp
  dt : .dt ∉ changed → t.dt = s.dt
  st : .st ∉ changed → t.st = s.st
  fb : .fb ∉ changed → ∀ (x : Fin 64) (y : Fin 32), t.fb.get x y = s.fb.get x y
  keys : .keys ∉ changed → ∀ k : Reg, t.key k = s.key k
  aw : .aw ∉ changed → t.aw = s.aw
  seenKeys : .seenKeys ∉ changed → t.seenKeys = s.seenKeys
  mem : .mem ∉ changed → ∀ a : Nat, t.readByte a = s.readByte a
  draws : .draws ∉ changed → t.draws = s.draws

/-- A wait counts the key: it is pressed and, when `KEY_WAIT_SELECT` is edge-sensitive, was not when the wait last looked
(40_step_cycle.md R80; log 30). -/
def KeyCounts (s : State) (k : Reg) : Prop :=
  s.key k = true ∧ (s.params.keyWaitSelect.sense = .edge → s.seenKeys[k.val] = false)

/-- The step completed (R85). -/
abbrev Executed (t : State) : Prop := t.lastResult = some (.outcome .executed)

/-- The step ended with an error (R79). -/
abbrev Raised (e : Fault) (t : State) : Prop := t.lastResult = some (.error e)

/-- Run instructions one after another, each as `exec` gives it, without fetching. -/
def execAll : List Instr → State → Host.Outcome State Fault Refusal
  | [], s => .next s
  | i :: is, s =>
    match exec i s with
    | .next t => execAll is t
    | .fault e => .fault e
    | .refused r => .refused r

/-- Does a sprite of `n` rows at `base`, drawn at `(x0, y0)`, have a 1 bit on the pixel `(px, py)`? Row r, bit 7 - c
falls on column `(x0 + c) mod 64` and row `(y0 + r) mod 32` (43_display.md R116). -/
def SpriteHits (s : State) (x0 y0 base n : Nat) (px : Fin 64) (py : Fin 32) : Prop :=
  ∃ r c : Nat, r < n ∧ c < 8 ∧ (s.readByte (base + r)).getLsbD (7 - c) = true ∧
    px.val = (x0 + c) % 64 ∧ py.val = (y0 + r) % 32

/-- The parts of the state an instruction may change at all, with an error or without one. -/
def mayChange : Instr → List Part
  | .cls => [.fb]
  | .ret => [.pc, .sp]
  | .callAddr _ => [.pc, .stack, .sp]
  | .jpAddr _ | .jpV0Addr _ | .seVxByte _ _ | .sneVxByte _ _ | .seVxVy _ _ | .sneVxVy _ _ | .skpVx _ | .sknpVx _ => [.pc]
  | .ldVxByte _ _ | .addVxByte _ _ | .ldVxVy _ _ | .orVxVy _ _ | .andVxVy _ _ | .xorVxVy _ _ | .addVxVy _ _
  | .subVxVy _ _ | .shrVxVy _ _ | .subnVxVy _ _ | .shlVxVy _ _ | .ldVxDT _ => [.v]
  | .rndVxByte _ _ => [.v, .draws]
  | .drwVxVyNibble _ _ _ => [.v, .fb]
  | .ldIAddr _ | .addIVx _ | .ldFVx _ => [.i]
  | .ldVxK _ => [.aw, .seenKeys]
  | .ldDTVx _ => [.dt]
  | .ldSTVx _ => [.st]
  | .ldBVx _ => [.mem]
  | .ldMemVx _ => [.mem, .i]
  | .ldVxMem _ => [.v, .i]

/-- The instructions that write VF as a flag (10_state.md R26), with `LOGIC_VF_RESET` as the instance has it. -/
def setsFlag (s : State) : Instr → Bool
  | .addVxVy _ _ | .subVxVy _ _ | .shrVxVy _ _ | .subnVxVy _ _ | .shlVxVy _ _ | .drwVxVyNibble _ _ _ => true
  | .orVxVy _ _ | .andVxVy _ _ | .xorVxVy _ _ => s.params.logicVfReset
  | .cls | .ret | .jpAddr _ | .callAddr _ | .seVxByte _ _ | .sneVxByte _ _ | .seVxVy _ _ | .ldVxByte _ _
  | .addVxByte _ _ | .ldVxVy _ _ | .sneVxVy _ _ | .ldIAddr _ | .jpV0Addr _ | .rndVxByte _ _ | .skpVx _ | .sknpVx _
  | .ldVxDT _ | .ldVxK _ | .ldDTVx _ | .ldSTVx _ | .addIVx _ | .ldFVx _ | .ldBVx _ | .ldMemVx _ | .ldVxMem _ => false

/-- The instructions that write VF as the ordinary register X names, or FX65 loads (10_state.md R26). -/
def writesVfAsVx : Instr → Bool
  | .ldVxByte x _ | .addVxByte x _ | .ldVxVy x _ | .orVxVy x _ | .andVxVy x _ | .xorVxVy x _ | .addVxVy x _
  | .subVxVy x _ | .shrVxVy x _ | .subnVxVy x _ | .shlVxVy x _ | .rndVxByte x _ | .ldVxDT x | .ldVxMem x =>
    decide (x = Reg.vf)
  | .cls | .ret | .jpAddr _ | .callAddr _ | .seVxByte _ _ | .sneVxByte _ _ | .seVxVy _ _ | .sneVxVy _ _ | .ldIAddr _
  | .jpV0Addr _ | .drwVxVyNibble _ _ _ | .skpVx _ | .sknpVx _ | .ldVxK _ | .ldDTVx _ | .ldSTVx _ | .addIVx _ | .ldFVx _
  | .ldBVx _ | .ldMemVx _ => false

/-- Why a model's observation of a run ends (R148). The core itself does not stop. DESIGN CHOICE, safe (log 26). -/
inductive RunEnd where
  /-- A step error. -/
  | stepError (e : Fault)
  /-- An `InvalidOpcode` outcome. -/
  | invalidOpcode (w : Word)
  /-- A step that executed `1NNN` with NNN its own address. -/
  | selfJump
  /-- The host's budget ran out. -/
  | budget
  /-- The model itself has no move (no step of this core comes here); the model's own reason. DESIGN CHOICE, safe (log 26). -/
  | noMove
  deriving DecidableEq, Repr

/-- Does the next step execute a jump to its own address (R148)? -/
def atSelfJump (s : State) : Bool :=
  match s.aw, fetch s with
  | none, .ok w => decide (decode w = some (.jpAddr (BitVec.ofNat 12 s.pc.toNat)) ∧ s.pc.toNat ≤ 0xFFF)
  | _, _ => false

/-- Does the step from `s` to `t` end the observation, and why (R148, in its order)? -/
def runEnd (s t : State) : Option RunEnd :=
  match t.lastResult with
  | some (.error e) => some (.stepError e)
  | some (.outcome (.invalidOpcode w)) => some (.invalidOpcode w)
  | _ => if atSelfJump s then some .selfJump else none

/-- Does a host operation from `s` to `t` end the observation (R148)? Only a step does. -/
def opEnd (op : HostOp) (s t : State) : Option RunEnd :=
  match op with
  | .step => runEnd s t
  | .init | .load _ _ | .tickTimers | .setKey _ _ | .frameBuffer | .soundTimer | .snapshot => none

/-- Observe the run under one sequence of host operations, ticks and key changes between the steps included (R148,
R149): why it ended, and the state it ended in. The end of the sequence is the host's budget. -/
def observe : List HostOp → State → RunEnd × State
  | [], s => (.budget, s)
  | op :: ops, s =>
    match hostOp op s with
    | .next (t, _) =>
      match opEnd op s t with
      | some e => (e, t)
      | none => observe ops t
    | .fault _ => (.noMove, s)
    | .refused _ => (.noMove, s)

/-- The operations that do not replace the program: an init or a load begins another run. DESIGN CHOICE, safe (log 26). -/
def KeepsProgram : HostOp → Prop
  | .init | .load _ _ => False
  | .step | .tickTimers | .setKey _ _ | .frameBuffer | .soundTimer | .snapshot => True

/-- A safe run under one sequence of host operations: its observation did not end with an error or an invalid word. -/
def SafeUnder (ops : List HostOp) (s : State) : Prop := (observe ops s).1 = .budget ∨ (observe ops s).1 = .selfJump

/-- A safe program in a state: safe under EVERY sequence of steps, ticks, key changes and accessors (R149). -/
def Safe (s : State) : Prop := ∀ ops : List HostOp, (∀ op ∈ ops, KeepsProgram op) → SafeUnder ops s

end Sys2Proof.Safety
end

