-- ==== Sys2Proof/Certificates/Slice0/Obligations.lean ====
section
/-! DEFINITION. The statements for the provers. Each docstring names the rule or section of spec/ it formalises; where
that rests on a decision the spec marks as its own, or on a choice of this model, it says so and names the log entry.
An instruction's statement speaks of `exec` from a state whose PC is already advanced (40_step_cycle.md R82). -/

open Sys2Proof Sys2Proof.Machine Sys2Proof.Safety

/-! ## Encoding -/

/-- 30_encoding.md sections 2 and 3 (encodings supplied by the spec, log 8): every instruction decodes back from its
word, with every operand. -/
def Obligations.DecodeInvertsEncode : Prop := ∀ i : Instr, decode (encode i) = some i

/-- 30_encoding.md R72 (D1, log 8): no don't-care bits: a word that decodes is the very word its instruction encodes to. -/
def Obligations.DecodedWordHasNoFreeBits : Prop := ∀ (w : Word) (i : Instr), decode w = some i → encode i = w

/-- 30_encoding.md R70 (log 8): exactly one row of the opcode table accepts a word that decodes, none accepts a word
that does not. -/
def Obligations.OneRowAcceptsEachValidWord : Prop :=
  ∀ w : Word, (opcodeRows.filter fun r => r.accepts w).length = if (decode w).isSome then 1 else 0

/-- 30_encoding.md R73 (log 8, log 27): the invalid words, group by group. -/
def Obligations.InvalidWordsAreTheListedGroups : Prop :=
  ∀ w : Word, decode w = none ↔
    (w.toNat / 0x1000 = 0x0 ∧ w.toNat ≠ 0x00E0 ∧ w.toNat ≠ 0x00EE) ∨
    (w.toNat / 0x1000 = 0x5 ∧ w.toNat % 16 ≠ 0) ∨
    (w.toNat / 0x1000 = 0x8 ∧ w.toNat % 16 ∈ [0x8, 0x9, 0xA, 0xB, 0xC, 0xD, 0xF]) ∨
    (w.toNat / 0x1000 = 0x9 ∧ w.toNat % 16 ≠ 0) ∨
    (w.toNat / 0x1000 = 0xE ∧ w.toNat % 256 ∉ [0x9E, 0xA1]) ∨
    (w.toNat / 0x1000 = 0xF ∧ w.toNat % 256 ∉ [0x07, 0x0A, 0x15, 0x18, 0x1E, 0x29, 0x33, 0x55, 0x65])

/-- 30_encoding.md R66 to R69, 42_register_alu.md R103, R104 (0x6005 and 0x7003 are confirmed by the source): words
written out from the spec, one per family, and the invalid words R72 names. -/
def Obligations.WordsOfTheSpecDecode : Prop :=
  decode 0x6005 = some (.ldVxByte 0 0x05) ∧ decode 0x7003 = some (.addVxByte 0 0x03) ∧
  decode 0x00E0 = some .cls ∧ decode 0x2210 = some (.callAddr 0x210) ∧ decode 0x8014 = some (.addVxVy 0 1) ∧
  decode 0xD012 = some (.drwVxVyNibble 0 1 2) ∧ decode 0xF233 = some (.ldBVx 2) ∧ decode 0xE19E = some (.skpVx 1) ∧
  decode 0x5121 = none ∧ decode 0x9AB3 = none ∧ decode 0xE09F = none ∧ decode 0x0000 = none

/-! ## The step -/

/-- 20_memory.md R53: the byte at PC is bits 15:8 of the opcode and the byte at PC+1 is bits 7:0. -/
def Obligations.FetchIsBigEndian : Prop :=
  ∀ s : State, s.pc.toNat < 0xFFF →
    ∃ w, fetch s = .ok w ∧ w.toNat = 256 * (s.readByte s.pc.toNat).toNat + (s.readByte (s.pc.toNat + 1)).toNat

/-- 40_step_cycle.md R83 with the advance of R82 (D3, log 16): a step whose fetched word decodes runs that instruction
on the state with PC advanced by 2 modulo 0x1000 and nothing else changed. -/
def Obligations.StepRunsTheDecodedInstruction : Prop :=
  ∀ (s : State) (w : Word) (i : Instr), s.aw = none → fetch s = .ok w → decode w = some i →
    step s = exec i { s with pc := BitVec.ofNat 16 ((s.pc.toNat + 2) % 0x1000) }

/-- 40_step_cycle.md R84: a word that matches no row returns `InvalidOpcode(w)` and changes nothing but the already
advanced PC; the core does not halt. -/
def Obligations.InvalidWordOnlyAdvancesPC : Prop :=
  ∀ (s : State) (w : Word), s.aw = none → fetch s = .ok w → decode w = none →
    ∃ t, step s = .next t ∧ t.lastResult = some (.outcome (.invalidOpcode w)) ∧
      t.pc.toNat = (s.pc.toNat + 2) % 0x1000 ∧ KeepsAllBut [.pc] s t

/-- 40_step_cycle.md R81 (D4, D5, log 17; that the error is a next state is the model's choice, log 1): a fetch at
0xFFF returns `AddressOutOfRange(0x1000)` and changes nothing. -/
def Obligations.FetchAtTheLastByteRaises : Prop :=
  ∀ s : State, s.aw = none → s.pc.toNat = 0xFFF →
    ∃ t, step s = .next t ∧ Raised (.addressOutOfRange 0x1000) t ∧ KeepsAllBut [] s t

/-- 40_step_cycle.md R80 (D20, log 15; the other values of `KEY_WAIT_SELECT` are log 30): a poll stores in the awaited
register the first key that counts, ends the wait, and changes nothing else. With R9's value, level-sensitive and lowest
index first, that is the least pressed key. -/
def Obligations.PollTakesTheSelectedKey : Prop :=
  ∀ (s : State) (x k : Reg), s.aw = some x → KeyCounts s k →
    (s.params.keyWaitSelect.order = .lowest → ∀ j : Reg, j < k → ¬ KeyCounts s j) →
    (s.params.keyWaitSelect.order = .highest → ∀ j : Reg, k < j → ¬ KeyCounts s j) →
    ∃ t, step s = .next t ∧ Executed t ∧ (t.readV x).toNat = k.val ∧ (∀ y : Reg, y ≠ x → t.readV y = s.readV y) ∧
      t.aw = none ∧ KeepsAllBut [.v, .aw] s t

/-- 40_step_cycle.md R80, R89 (D20, log 15; an edge-sensitive `KEY_WAIT_SELECT` is log 30): with no key that counts, so
with none pressed at all, a waiting step returns `AwaitingKey` and changes nothing: the program is not let past the wait.
Only an edge-sensitive wait remembers the keys it saw. -/
def Obligations.PollWithoutAKeyChangesNothing : Prop :=
  ∀ (s : State) (x : Reg), s.aw = some x → (∀ k : Reg, ¬ KeyCounts s k) →
    ∃ t, step s = .next t ∧ t.lastResult = some (.outcome .awaitingKey) ∧ KeepsAllBut [.seenKeys] s t ∧
      (s.params.keyWaitSelect.sense = .level → t.seenKeys = s.seenKeys) ∧
      (s.params.keyWaitSelect.sense = .edge → t.seenKeys = s.keys)

/-- 40_step_cycle.md R87, 60_exceptions.md R133 (D30; the model's choice, log 1): no state halts the core: every step,
and every sequence of host operations, answers a next state, and every step returns a result. -/
def Obligations.NoStateHaltsTheCore : Prop :=
  (∀ s : State, ∃ t, step s = .next t ∧ t.lastResult ≠ none) ∧
    ∀ (ops : List HostOp) (s : State), ∃ t, hostRun ops s = .next t

/-- 10_state.md R20, 40_step_cycle.md R87 (no sticky fault bit; the field is the model's, log 2): what the last step
returned has no influence on the next. -/
def Obligations.StepIgnoresTheLastResult : Prop :=
  ∀ (s : State) (r : Option StepResult), step { s with lastResult := r } = step s

/-! ## Rules of the whole machine -/

/-- 10_state.md R45 (that step keeps it; with log 7 for the canonical form and R94 for the slots): from every state that
meets the invariant, a step leaves one that meets it. -/
def Obligations.StepKeepsTheInvariant : Prop := ∀ s t : State, StateInv s → step s = .next t → StateInv t

/-- 70_reset_and_hazards.md R151, 10_state.md R45 (with log 7 for the canonical form of memory, which R45 does not give, and
R94 for the slots): the state of init meets the invariant, with any parameters. -/
def Obligations.InitMeetsTheInvariant : Prop := StateInv State.reset ∧ ∀ (p : Config.Params) (n : Nat), StateInv (State.init p n)

/-- 10_state.md R45, 60_exceptions.md R149 (with log 7 for the canonical form of memory, which R45 does not give, and R94
for the slots): every state reached by host operations from init meets the invariant, whatever the parameters and the
draws. -/
def Obligations.ReachableStatesMeetTheInvariant : Prop :=
  ∀ (p : Config.Params) (n : Nat) (ops : List HostOp) (t : State), hostRun ops (State.init p n) = .next t → StateInv t

/-- Sections 2 to 10 of 10_state.md, and for memory 44_index_memory.md and 20_memory.md section 3 (which instruction
writes which field), and for an error 40_step_cycle.md section 7 (D6, log 1, log 17): the frame of all 34 instructions,
with an error or without one. Of FX33 and FX55 it says nothing about memory: their bytes are in BcdStoresThreeDigits and
BlockStoreWritesTheRegisters, and in RangeErrorsLeaveNoPartialEffect on an error. The keys FX0A remembers are log 30. -/
def Obligations.InstructionsChangeOnlyTheirParts : Prop :=
  ∀ (i : Instr) (s t : State), exec i s = .next t → KeepsAllBut (mayChange i) s t

/-- 44_index_memory.md R121, R122 (D14, log 3): the block transfers move I only when `LOADSTORE_I_INCREMENT` is set. -/
def Obligations.BlockTransfersMoveIByTheParameter : Prop :=
  ∀ (s : State) (x : Reg), s.i.toNat + x.val ≤ 0xFFF →
    ∃ t u, exec (.ldMemVx x) s = .next t ∧ exec (.ldVxMem x) s = .next u ∧ t.i = u.i ∧
      (s.params.loadstoreIIncrement = true → t.i.toNat = (s.i.toNat + x.val + 1) % 0x1000) ∧
      (s.params.loadstoreIIncrement = false → t.i = s.i)

/-- 10_state.md R26 (D11, D13, log 11): the instructions that write VF as a flag leave exactly 0 or 1 in it when they
complete, and no instruction changes VF but these and those that name it as X or load it. -/
def Obligations.OnlyTheListedInstructionsChangeVF : Prop :=
  ∀ (i : Instr) (s t : State), exec i s = .next t →
    (setsFlag s i = true → Executed t → t.readV Reg.vf = 0 ∨ t.readV Reg.vf = 1) ∧
    (setsFlag s i = false → writesVfAsVx i = false → t.readV Reg.vf = s.readV Reg.vf)

/-- 10_state.md R37, R39, 70_reset_and_hazards.md R162: no step changes the keypad, and DT and ST change in a step only
when it runs FX15 or FX18. -/
def Obligations.StepsLeaveKeypadAndTimersAlone : Prop :=
  ∀ s t : State, step s = .next t →
    t.keys = s.keys ∧
    (t.dt = s.dt ∨ ∃ w x, s.aw = none ∧ fetch s = .ok w ∧ decode w = some (.ldDTVx x)) ∧
    (t.st = s.st ∨ ∃ w x, s.aw = none ∧ fetch s = .ok w ∧ decode w = some (.ldSTVx x))

/-- 60_exceptions.md, sections 1 and 2 (derived there from decisions D4 to D7; log 1, log 17): an error a step returns has
one of the listed causes: no other instruction and no other condition raises one. -/
def Obligations.ErrorsHaveOnlyTheListedCauses : Prop :=
  ∀ (s t : State) (e : Fault), step s = .next t → Raised e t →
    s.aw = none ∧
    ((0xFFF ≤ s.pc.toNat ∧ (s.pc.toNat = 0xFFF → e = .addressOutOfRange 0x1000)) ∨
      ∃ w, fetch s = .ok w ∧
        ((∃ x y n, decode w = some (.drwVxVyNibble x y n) ∧ 0 < n.toNat ∧ s.i.toNat + n.toNat - 1 > 0xFFF ∧
            e = .addressOutOfRange 0x1000) ∨
          (∃ x, decode w = some (.ldBVx x) ∧ s.i.toNat + 2 > 0xFFF ∧ e = .addressOutOfRange 0x1000) ∨
          (∃ x, (decode w = some (.ldMemVx x) ∨ decode w = some (.ldVxMem x)) ∧ s.i.toNat + x.val > 0xFFF ∧
            e = .addressOutOfRange 0x1000) ∨
          (∃ nnn, decode w = some (.callAddr nnn) ∧ s.sp.val = 16 ∧ e = .stackOverflow) ∨
          (decode w = some .ret ∧ s.sp.val = 0 ∧ e = .stackUnderflow)))

/-- 20_memory.md R62 (D28): bytes a block store puts at PC are the opcode the very next fetch reads. -/
def Obligations.StoredBytesAreFetchedNext : Prop :=
  ∀ (s : State) (x : Reg), 1 ≤ x.val → s.i = s.pc → s.i.toNat + x.val ≤ 0xFFF →
    ∃ t w, exec (.ldMemVx x) s = .next t ∧ fetch t = .ok w ∧
      w.toNat = 256 * (s.readV 0).toNat + (s.readV 1).toNat

/-! ## Control flow -/

/-- 41_control_flow.md, 00EE (D6 for the error; that an error is a next state is the model's choice, log 1): RET pops
the return address, and returns StackUnderflow at SP = 0 with nothing changed; the slot read keeps its value. -/
def Obligations.ReturnPopsTheReturnAddress : Prop :=
  (∀ w : Word, decode w = some .ret ↔ w = 0x00EE) ∧
  ∀ s : State,
    (∀ j : Fin 16, s.sp.val = j.val + 1 →
      ∃ t, exec .ret s = .next t ∧ Executed t ∧ t.sp.val = j.val ∧ t.pc.toNat = s.stack[j.val].toNat % 0x1000 ∧
        KeepsAllBut [.pc, .sp] s t) ∧
    (s.sp.val = 0 → ∃ t, exec .ret s = .next t ∧ Raised .stackUnderflow t ∧ KeepsAllBut [] s t)

/-- 41_control_flow.md, 2NNN (D6 for the error; that an error is a next state is the model's choice, log 1): CALL pushes
the address after the call and jumps, and returns StackOverflow at SP = 16 with nothing changed. -/
def Obligations.CallPushesTheNextAddress : Prop :=
  ∀ (nnn : BitVec 12) (s : State),
    decode (0x2#4 ++ nnn) = some (.callAddr nnn) ∧
    (s.sp.val < 16 →
      ∃ t, exec (.callAddr nnn) s = .next t ∧ Executed t ∧ t.sp.val = s.sp.val + 1 ∧ t.pc.toNat = nnn.toNat ∧
        (∀ j : Fin 16, t.stack[j.val] = if j.val = s.sp.val then s.pc else s.stack[j.val]) ∧
        KeepsAllBut [.pc, .stack, .sp] s t) ∧
    (s.sp.val = 16 → ∃ t, exec (.callAddr nnn) s = .next t ∧ Raised .stackOverflow t ∧ KeepsAllBut [] s t)

/-- 95_test_vectors.md W7, 41_control_flow.md, 00EE and 2NNN: a return straight after a call continues at the instruction
after the call, with the stack pointer as before it. -/
def Obligations.ReturnContinuesAfterTheCall : Prop :=
  ∀ (nnn : BitVec 12) (s : State), s.sp.val < 16 → s.pc.toNat ≤ 0xFFF →
    ∃ t u, exec (.callAddr nnn) s = .next t ∧ exec .ret t = .next u ∧ Executed u ∧ u.pc = s.pc ∧ u.sp = s.sp ∧
      KeepsAllBut [.stack] s u

/-- 41_control_flow.md, 2NNN, 95_test_vectors.md W7 (log 1 for the error): from an empty stack, up to 16 nested calls
succeed, one slot each, and a 17th returns StackOverflow. -/
def Obligations.SixteenNestedCallsThenOverflow : Prop :=
  ∀ (targets : List (BitVec 12)) (s : State), s.sp.val = 0 → targets.length ≤ 16 →
    ∃ t, execAll (targets.map Instr.callAddr) s = .next t ∧ t.sp.val = targets.length ∧ (targets ≠ [] → Executed t) ∧
      (targets.length = 16 → ∀ nnn, ∃ u, exec (.callAddr nnn) t = .next u ∧ Raised .stackOverflow u)

/-- 41_control_flow.md R95, R97 (D3, D15, log 3, log 16): JP goes to NNN; BNNN to NNN plus V0, or plus VX when
`JUMP_OFFSET_REG` is VX (X the top four bits of NNN), modulo 0x1000. -/
def Obligations.JumpsSetThePC : Prop :=
  ∀ (nnn : BitVec 12) (s : State),
    (∃ t, exec (.jpAddr nnn) s = .next t ∧ Executed t ∧ t.pc.toNat = nnn.toNat ∧ KeepsAllBut [.pc] s t) ∧
    (∃ t, exec (.jpV0Addr nnn) s = .next t ∧ Executed t ∧ KeepsAllBut [.pc] s t ∧
      (s.params.jumpOffsetReg = .v0 → t.pc.toNat = (nnn.toNat + (s.readV 0).toNat) % 0x1000) ∧
      (s.params.jumpOffsetReg = .vx → ∀ x : Reg, x.val = nnn.toNat / 0x100 →
        t.pc.toNat = (nnn.toNat + (s.readV x).toNat) % 0x1000))

/-- 41_control_flow.md, 1NNN, with 60_exceptions.md section 12 (D44, log 26): a jump to its own address is the idle loop:
the step returns `Executed`, changes nothing, and is where an observation of the run ends. -/
def Obligations.SelfJumpIsTheIdleLoop : Prop :=
  ∀ s : State, s.aw = none → s.pc.toNat < 0xFFF → fetch s = .ok (0x1#4 ++ BitVec.ofNat 12 s.pc.toNat) →
    ∃ t, step s = .next t ∧ Executed t ∧ KeepsAllBut [] s t ∧ runEnd s t = some .selfJump

/-- 41_control_flow.md R98, R99, R100, R101: the four skips on registers add a further 2 to PC exactly when their
condition holds, and change nothing else; a nonzero low nibble makes 5XY0 and 9XY0 invalid. -/
def Obligations.RegisterSkipsTestTheirCondition : Prop :=
  ∀ (x y : Reg) (kk : Byte) (s : State),
    (∀ n : BitVec 4, n ≠ 0 → decode (0x5#4 ++ regBits x ++ regBits y ++ n) = none ∧
      decode (0x9#4 ++ regBits x ++ regBits y ++ n) = none) ∧
    decode (0x3#4 ++ regBits x ++ kk) = some (.seVxByte x kk) ∧
    decode (0x4#4 ++ regBits x ++ kk) = some (.sneVxByte x kk) ∧
    decode (0x5#4 ++ regBits x ++ regBits y ++ 0#4) = some (.seVxVy x y) ∧
    decode (0x9#4 ++ regBits x ++ regBits y ++ 0#4) = some (.sneVxVy x y) ∧
    (∃ t, exec (.seVxByte x kk) s = .next t ∧ Executed t ∧ KeepsAllBut [.pc] s t ∧
      t.pc.toNat = if s.readV x = kk then (s.pc.toNat + 2) % 0x1000 else s.pc.toNat) ∧
    (∃ t, exec (.sneVxByte x kk) s = .next t ∧ Executed t ∧ KeepsAllBut [.pc] s t ∧
      t.pc.toNat = if s.readV x = kk then s.pc.toNat else (s.pc.toNat + 2) % 0x1000) ∧
    (∃ t, exec (.seVxVy x y) s = .next t ∧ Executed t ∧ KeepsAllBut [.pc] s t ∧
      t.pc.toNat = if s.readV x = s.readV y then (s.pc.toNat + 2) % 0x1000 else s.pc.toNat) ∧
    (∃ t, exec (.sneVxVy x y) s = .next t ∧ Executed t ∧ KeepsAllBut [.pc] s t ∧
      t.pc.toNat = if s.readV x = s.readV y then s.pc.toNat else (s.pc.toNat + 2) % 0x1000)

/-! ## Register load, ALU group, random -/

/-- 42_register_alu.md R103: `LD Vx, byte` followed by one step yields VX = KK and PC advanced by exactly 2. -/
def Obligations.LoadImmediateSetsVX : Prop :=
  ∀ (x : Reg) (kk : Byte) (s : State),
    decode (0x6#4 ++ regBits x ++ kk) = some (.ldVxByte x kk) ∧
    (∃ t, exec (.ldVxByte x kk) s = .next t ∧ Executed t ∧ t.readV x = kk ∧
      (∀ y : Reg, y ≠ x → t.readV y = s.readV y) ∧ KeepsAllBut [.v] s t) ∧
    (s.aw = none → fetch s = .ok (0x6#4 ++ regBits x ++ kk) →
      ∃ t, step s = .next t ∧ Executed t ∧ t.readV x = kk ∧ t.pc.toNat = (s.pc.toNat + 2) % 0x1000)

/-- 42_register_alu.md, 7XKK and 8XY0 (D11, D13, log 11): immediate add modulo 256 with no flag, and assignment; no
other register changes. -/
def Obligations.ImmediateAddAndMoveSetOnlyVX : Prop :=
  ∀ (x y : Reg) (kk : Byte) (s : State),
    (∃ t, exec (.addVxByte x kk) s = .next t ∧ Executed t ∧
      (t.readV x).toNat = ((s.readV x).toNat + kk.toNat) % 256 ∧
      (∀ z : Reg, z ≠ x → t.readV z = s.readV z) ∧ KeepsAllBut [.v] s t) ∧
    (∃ t, exec (.ldVxVy x y) s = .next t ∧ Executed t ∧ t.readV x = s.readV y ∧
      (∀ z : Reg, z ≠ x → t.readV z = s.readV z) ∧ KeepsAllBut [.v] s t)

/-- 42_register_alu.md, 8XY1, 8XY2, 8XY3 (D11, log 3): the bitwise results bit by bit; VF is set to 0 afterwards exactly
when `LOGIC_VF_RESET` is set, X = 15 included. -/
def Obligations.LogicGroupComputesBitwise : Prop :=
  ∀ (x y : Reg) (s : State),
    (∃ t, exec (.orVxVy x y) s = .next t ∧ Executed t ∧ KeepsAllBut [.v] s t ∧
      (s.params.logicVfReset = true → t.readV Reg.vf = 0) ∧
      (s.params.logicVfReset = false ∨ x ≠ Reg.vf → ∀ j, (t.readV x).getLsbD j = ((s.readV x).getLsbD j || (s.readV y).getLsbD j)) ∧
      (∀ z : Reg, z ≠ x → s.params.logicVfReset = false ∨ z ≠ Reg.vf → t.readV z = s.readV z)) ∧
    (∃ t, exec (.andVxVy x y) s = .next t ∧ Executed t ∧ KeepsAllBut [.v] s t ∧
      (s.params.logicVfReset = true → t.readV Reg.vf = 0) ∧
      (s.params.logicVfReset = false ∨ x ≠ Reg.vf → ∀ j, (t.readV x).getLsbD j = ((s.readV x).getLsbD j && (s.readV y).getLsbD j)) ∧
      (∀ z : Reg, z ≠ x → s.params.logicVfReset = false ∨ z ≠ Reg.vf → t.readV z = s.readV z)) ∧
    (∃ t, exec (.xorVxVy x y) s = .next t ∧ Executed t ∧ KeepsAllBut [.v] s t ∧
      (s.params.logicVfReset = true → t.readV Reg.vf = 0) ∧
      (s.params.logicVfReset = false ∨ x ≠ Reg.vf → ∀ j, (t.readV x).getLsbD j = ((s.readV x).getLsbD j ^^ (s.readV y).getLsbD j)) ∧
      (∀ z : Reg, z ≠ x → s.params.logicVfReset = false ∨ z ≠ Reg.vf → t.readV z = s.readV z))

/-- 42_register_alu.md, 8XY4 (D13, log 11): the sum modulo 256 in VX and the carry in VF, written last: when X = 15 VF is
the carry. -/
def Obligations.AddSetsTheCarry : Prop :=
  ∀ (x y : Reg) (s : State),
    ∃ t, exec (.addVxVy x y) s = .next t ∧ Executed t ∧
      (x ≠ Reg.vf → (t.readV x).toNat = ((s.readV x).toNat + (s.readV y).toNat) % 256) ∧
      (t.readV Reg.vf).toNat = (if (s.readV x).toNat + (s.readV y).toNat > 255 then 1 else 0) ∧
      (∀ z : Reg, z ≠ x → z ≠ Reg.vf → t.readV z = s.readV z) ∧ KeepsAllBut [.v] s t

/-- 42_register_alu.md, 8XY5 and 8XY7 (D12, D13, log 10, log 11): the difference modulo 256 in VX and not-borrow in VF,
written last; equality is no borrow. -/
def Obligations.SubtractionsSetNotBorrow : Prop :=
  ∀ (x y : Reg) (s : State),
    (∃ t, exec (.subVxVy x y) s = .next t ∧ Executed t ∧
      (x ≠ Reg.vf → (t.readV x).toNat = (256 + (s.readV x).toNat - (s.readV y).toNat) % 256) ∧
      (t.readV Reg.vf).toNat = (if (s.readV x).toNat ≥ (s.readV y).toNat then 1 else 0) ∧
      (∀ z : Reg, z ≠ x → z ≠ Reg.vf → t.readV z = s.readV z) ∧ KeepsAllBut [.v] s t) ∧
    (∃ t, exec (.subnVxVy x y) s = .next t ∧ Executed t ∧
      (x ≠ Reg.vf → (t.readV x).toNat = (256 + (s.readV y).toNat - (s.readV x).toNat) % 256) ∧
      (t.readV Reg.vf).toNat = (if (s.readV y).toNat ≥ (s.readV x).toNat then 1 else 0) ∧
      (∀ z : Reg, z ≠ x → z ≠ Reg.vf → t.readV z = s.readV z) ∧ KeepsAllBut [.v] s t)

/-- 42_register_alu.md, 8XY6 and 8XYE (D10, D13, log 3, log 11): the source (VX, or VY when `SHIFT_SOURCE` is VY) shifted
by one in VX and the bit shifted out in VF, written last. -/
def Obligations.ShiftsMoveABitIntoVF : Prop :=
  ∀ (x y : Reg) (s : State) (src : Nat),
    (s.params.shiftSource = .vx → src = (s.readV x).toNat) → (s.params.shiftSource = .vy → src = (s.readV y).toNat) →
    (∃ t, exec (.shrVxVy x y) s = .next t ∧ Executed t ∧ (x ≠ Reg.vf → (t.readV x).toNat = src / 2) ∧
      (t.readV Reg.vf).toNat = src % 2 ∧
      (∀ z : Reg, z ≠ x → z ≠ Reg.vf → t.readV z = s.readV z) ∧ KeepsAllBut [.v] s t) ∧
    (∃ t, exec (.shlVxVy x y) s = .next t ∧ Executed t ∧ (x ≠ Reg.vf → (t.readV x).toNat = 2 * src % 256) ∧
      (t.readV Reg.vf).toNat = src / 128 ∧
      (∀ z : Reg, z ≠ x → z ≠ Reg.vf → t.readV z = s.readV z) ∧ KeepsAllBut [.v] s t)

/-- 42_register_alu.md, CXKK (D21; the oracle is the model's free value, log 4): VX takes the fresh draw masked by KK, so
no bit outside KK is set, and exactly one byte is drawn. -/
def Obligations.RandomByteIsMasked : Prop :=
  ∀ (x : Reg) (kk : Byte) (s : State),
    ∃ t, exec (.rndVxByte x kk) s = .next t ∧ Executed t ∧ t.readV x = Config.rand s.draws &&& kk ∧
      t.readV x &&& ~~~kk = 0 ∧ (∀ z : Reg, z ≠ x → t.readV z = s.readV z) ∧ t.draws = s.draws + 1 ∧
      KeepsAllBut [.v, .draws] s t

/-! ## Display -/

/-- 43_display.md R115: CLS sets every frame-buffer cell to 0, regardless of prior content, and touches nothing else. -/
def Obligations.ClearScreenZeroesEveryPixel : Prop :=
  (∀ w : Word, decode w = some .cls ↔ w = 0x00E0) ∧
  ∀ s : State, ∃ t, exec .cls s = .next t ∧ Executed t ∧
    (∀ (px : Fin 64) (py : Fin 32), t.fb.get px py = false) ∧ KeepsAllBut [.fb] s t

/-- 43_display.md R116 (D6, D17, D33, log 13): a sprite whose rows lie in memory is XORed onto the frame buffer, each
pixel's coordinates wrapping, and VF is 1 exactly when a pixel went from 1 to 0; every other pixel, register and byte is
unchanged. -/
def Obligations.DrawXorsTheSprite : Prop :=
  ∀ (x y : Reg) (n : BitVec 4) (s : State), n.toNat = 0 ∨ s.i.toNat + n.toNat ≤ 0x1000 →
    ∃ t, exec (.drwVxVyNibble x y n) s = .next t ∧ Executed t ∧ KeepsAllBut [.v, .fb] s t ∧
      (∀ z : Reg, z ≠ Reg.vf → t.readV z = s.readV z) ∧
      (∀ (px : Fin 64) (py : Fin 32),
        (SpriteHits s (s.readV x).toNat (s.readV y).toNat s.i.toNat n.toNat px py → t.fb.get px py = !s.fb.get px py) ∧
        (¬ SpriteHits s (s.readV x).toNat (s.readV y).toNat s.i.toNat n.toNat px py → t.fb.get px py = s.fb.get px py)) ∧
      ((∃ px py, SpriteHits s (s.readV x).toNat (s.readV y).toNat s.i.toNat n.toNat px py ∧ s.fb.get px py = true) →
        t.readV Reg.vf = 1) ∧
      ((∀ px py, SpriteHits s (s.readV x).toNat (s.readV y).toNat s.i.toNat n.toNat px py → s.fb.get px py = false) →
        t.readV Reg.vf = 0)

/-- 95_test_vectors.md W6, 43_display.md R116 (D17, log 13): drawing the same sprite twice at the same coordinates
restores the frame buffer. The second draw reports a collision exactly when a pixel under the sprite was 0 before the
first, so on a blank frame buffer exactly when the sprite has a 1 bit. -/
def Obligations.DrawingTwiceRestoresTheFrameBuffer : Prop :=
  ∀ (x y : Reg) (n : BitVec 4) (s : State), n.toNat = 0 ∨ s.i.toNat + n.toNat ≤ 0x1000 →
    ∃ t, exec (.drwVxVyNibble x y n) s = .next t ∧
      (t.readV x = s.readV x → t.readV y = s.readV y →
        ∃ u, exec (.drwVxVyNibble x y n) t = .next u ∧ Executed u ∧
          (∀ (px : Fin 64) (py : Fin 32), u.fb.get px py = s.fb.get px py) ∧
          (u.readV Reg.vf = 1 ↔ ∃ px py,
            SpriteHits s (s.readV x).toNat (s.readV y).toNat s.i.toNat n.toNat px py ∧ s.fb.get px py = false) ∧
          ((∀ px py, s.fb.get px py = false) →
            (u.readV Reg.vf = 1 ↔ ∃ r : Nat, r < n.toNat ∧ s.readByte (s.i.toNat + r) ≠ 0)))

/-- 40_step_cycle.md R86, 60_exceptions.md R130 (D6, D7, log 1, log 17): DXYN, FX33, FX55 and FX65 whose range runs past
0xFFF return `AddressOutOfRange(0x1000)` and change nothing. -/
def Obligations.RangeErrorsLeaveNoPartialEffect : Prop :=
  ∀ (x y : Reg) (n : BitVec 4) (s : State),
    (0 < n.toNat → s.i.toNat + n.toNat - 1 > 0xFFF →
      ∃ t, exec (.drwVxVyNibble x y n) s = .next t ∧ Raised (.addressOutOfRange 0x1000) t ∧ KeepsAllBut [] s t) ∧
    (s.i.toNat + 2 > 0xFFF →
      ∃ t, exec (.ldBVx x) s = .next t ∧ Raised (.addressOutOfRange 0x1000) t ∧ KeepsAllBut [] s t) ∧
    (s.i.toNat + x.val > 0xFFF →
      (∃ t, exec (.ldMemVx x) s = .next t ∧ Raised (.addressOutOfRange 0x1000) t ∧ KeepsAllBut [] s t) ∧
      (∃ t, exec (.ldVxMem x) s = .next t ∧ Raised (.addressOutOfRange 0x1000) t ∧ KeepsAllBut [] s t))

/-- 43_display.md, FX29 (D8, D19, log 9, log 14; other masks are log 30): I takes the address of the glyph of the digit
`VX & FONT_DIGIT_MASK`, with R9's mask VX's low nibble; where the digit is one of the sixteen and memory is as at reset,
the five bytes of that glyph stand there. -/
def Obligations.FontAddressPointsAtTheGlyph : Prop :=
  ∀ (x : Reg) (s : State) (d : Nat), d = (s.readV x &&& s.params.fontDigitMask).toNat →
    (s.params.fontDigitMask = 0x0F → d = (s.readV x).toNat % 16) ∧
    ∃ t, exec (.ldFVx x) s = .next t ∧ Executed t ∧ KeepsAllBut [.i] s t ∧
      t.i.toNat = (s.params.fontBase.val + 5 * d) % 0x1000 ∧
      (s.mem = [] → ∀ (j : Nat) (_ : j < 5) (h : 5 * d + j < 80),
        t.readByte (t.i.toNat + j) = s.params.fontData[5 * d + j])

/-! ## Address register and memory -/

/-- 44_index_memory.md R118: `LD I, addr` loads NNN, which is at most 0xFFF. -/
def Obligations.LoadIndexSetsI : Prop :=
  ∀ (nnn : BitVec 12) (s : State),
    decode (0xA#4 ++ nnn) = some (.ldIAddr nnn) ∧
    ∃ t, exec (.ldIAddr nnn) s = .next t ∧ Executed t ∧ t.i.toNat = nnn.toNat ∧ KeepsAllBut [.i] s t

/-- 44_index_memory.md, FX1E (D3, D16, log 16, log 20): I plus VX modulo 0x1000; VF is not written. -/
def Obligations.AddToIndexWrapsWithoutAFlag : Prop :=
  ∀ (x : Reg) (s : State),
    ∃ t, exec (.addIVx x) s = .next t ∧ Executed t ∧ t.i.toNat = (s.i.toNat + (s.readV x).toNat) % 0x1000 ∧
      KeepsAllBut [.i] s t

/-- 44_index_memory.md, FX33 (D6, log 12): hundreds, tens and ones at I, I+1, I+2, each one digit; every other byte is
unchanged and I too. -/
def Obligations.BcdStoresThreeDigits : Prop :=
  ∀ (x : Reg) (s : State), s.i.toNat + 2 ≤ 0xFFF →
    ∃ t, exec (.ldBVx x) s = .next t ∧ Executed t ∧ KeepsAllBut [.mem] s t ∧
      (t.readByte s.i.toNat).toNat = (s.readV x).toNat / 100 ∧
      (t.readByte (s.i.toNat + 1)).toNat = (s.readV x).toNat / 10 % 10 ∧
      (t.readByte (s.i.toNat + 2)).toNat = (s.readV x).toNat % 10 ∧
      (∀ a : Nat, a < indexAddr s ∨ indexAddr s + 2 < a → t.readByte a = s.readByte a)

/-- 44_index_memory.md, FX55 (D6, D14, log 3): V0 to VX stand at I to I+X; every other byte is unchanged. -/
def Obligations.BlockStoreWritesTheRegisters : Prop :=
  ∀ (x : Reg) (s : State), s.i.toNat + x.val ≤ 0xFFF →
    ∃ t, exec (.ldMemVx x) s = .next t ∧ Executed t ∧ KeepsAllBut [.mem, .i] s t ∧
      (∀ j : Reg, j ≤ x → t.readByte (s.i.toNat + j.val) = s.readV j) ∧
      (∀ a : Nat, a < indexAddr s ∨ indexAddr s + x.val < a → t.readByte a = s.readByte a)

/-- 44_index_memory.md, FX65 (D6, D14, log 3): V0 to VX take the bytes at I to I+X; the registers above VX are
unchanged. -/
def Obligations.BlockLoadFillsTheRegisters : Prop :=
  ∀ (x : Reg) (s : State), s.i.toNat + x.val ≤ 0xFFF →
    ∃ t, exec (.ldVxMem x) s = .next t ∧ Executed t ∧ KeepsAllBut [.v, .i] s t ∧
      (∀ j : Reg, j ≤ x → t.readV j = s.readByte (s.i.toNat + j.val)) ∧
      (∀ j : Reg, x < j → t.readV j = s.readV j)

/-- 44_index_memory.md, FX55 and FX65 (D14, log 3): registers stored by FX55 come back by FX65, whatever the registers
held in between. -/
def Obligations.BlockStoreThenLoadRestores : Prop :=
  ∀ (x : Reg) (s : State) (v : RegFile), s.i.toNat + x.val ≤ 0xFFF → s.params.loadstoreIIncrement = false →
    ∃ t u, exec (.ldMemVx x) s = .next t ∧ exec (.ldVxMem x) { t with v := v } = .next u ∧
      ∀ j : Reg, j ≤ x → u.readV j = s.readV j

/-! ## Keypad, timers, key wait -/

/-- 45_timers_keypad.md, EX9E and EXA1 (D18, log 14; other masks are log 30): skip when the key `VX & KEY_INDEX_MASK` is
pressed, and when it is not; with R9's mask the key is VX's low nibble. -/
def Obligations.KeySkipsTestTheKey : Prop :=
  ∀ (x k : Reg) (s : State), k.val = (s.readV x &&& s.params.keyIndexMask.setWidth 8).toNat →
    (s.params.keyIndexMask = 0xF → k.val = (s.readV x).toNat % 16) ∧
    (∃ t, exec (.skpVx x) s = .next t ∧ Executed t ∧ KeepsAllBut [.pc] s t ∧
      t.pc.toNat = if s.key k = true then (s.pc.toNat + 2) % 0x1000 else s.pc.toNat) ∧
    (∃ t, exec (.sknpVx x) s = .next t ∧ Executed t ∧ KeepsAllBut [.pc] s t ∧
      t.pc.toNat = if s.key k = true then s.pc.toNat else (s.pc.toNat + 2) % 0x1000)

/-- 45_timers_keypad.md, FX07, FX15 and FX18 (and 10_state.md section 13 for the sound output): FX07 reads DT, FX15 writes DT, FX18
writes ST, and the sound is on while ST is above 0. -/
def Obligations.TimerInstructionsMoveTheTimers : Prop :=
  ∀ (x : Reg) (s : State),
    decode (0xF#4 ++ regBits x ++ 0x07#8) = some (.ldVxDT x) ∧
    decode (0xF#4 ++ regBits x ++ 0x15#8) = some (.ldDTVx x) ∧
    decode (0xF#4 ++ regBits x ++ 0x18#8) = some (.ldSTVx x) ∧
    (∃ t, exec (.ldVxDT x) s = .next t ∧ Executed t ∧ t.readV x = s.dt ∧
      (∀ y : Reg, y ≠ x → t.readV y = s.readV y) ∧ KeepsAllBut [.v] s t) ∧
    (∃ t, exec (.ldDTVx x) s = .next t ∧ Executed t ∧ t.dt = s.readV x ∧ KeepsAllBut [.dt] s t) ∧
    (∃ t, exec (.ldSTVx x) s = .next t ∧ Executed t ∧ t.st = s.readV x ∧ KeepsAllBut [.st] s t ∧
      (soundOn t = true ↔ (s.readV x).toNat > 0))

/-- 45_timers_keypad.md, FX0A (D20, log 15; the other values of `KEY_WAIT_SELECT` are log 30): its own step polls nothing:
it sets the wait, returns `AwaitingKey` and changes nothing else, but that an edge-sensitive wait remembers the keys. A
key the host presses afterwards is taken by the next step, where none before it in the order is pressed; an
edge-sensitive wait asks that it was not pressed already. -/
def Obligations.KeyWaitIsEnteredAndEnded : Prop :=
  ∀ (x k : Reg) (s : State),
    ∃ t, exec (.ldVxK x) s = .next t ∧ t.lastResult = some (.outcome .awaitingKey) ∧ t.aw = some x ∧
      KeepsAllBut [.aw, .seenKeys] s t ∧
      (s.params.keyWaitSelect.sense = .level → t.seenKeys = s.seenKeys) ∧
      (s.params.keyWaitSelect.sense = .edge → t.seenKeys = s.keys) ∧
      ((s.params.keyWaitSelect.order = .lowest → ∀ j : Reg, j < k → s.key j = false) →
        (s.params.keyWaitSelect.order = .highest → ∀ j : Reg, k < j → s.key j = false) →
        (s.params.keyWaitSelect.sense = .edge → s.key k = false) →
        ∃ u, step (setKey k true t) = .next u ∧ Executed u ∧ u.aw = none ∧ (u.readV x).toNat = k.val ∧ u.pc = s.pc)

/-! ## Host operations -/

/-- 60_exceptions.md R138: a tick decrements each timer by 1 only if it is nonzero, changes nothing else and returns no
outcome; n ticks take n off, never below 0. -/
def Obligations.TicksCountTheTimersDown : Prop :=
  (∀ s : State, hostOp .tickTimers s = .next (tickTimers s, .nothing) ∧
    (tickTimers s).dt.toNat = s.dt.toNat - 1 ∧ (tickTimers s).st.toNat = s.st.toNat - 1 ∧
    KeepsAllBut [.dt, .st] s (tickTimers s) ∧ (tickTimers s).lastResult = s.lastResult) ∧
  ∀ (n : Nat) (s : State), (tickTimers^[n] s).dt.toNat = s.dt.toNat - n ∧ (tickTimers^[n] s).st.toNat = s.st.toNat - n

/-- 60_exceptions.md R135, section 7 (D32): set_key sets one key and changes nothing else, a key wait included; no event
is queued: a press and a release with no step between them is the release alone. -/
def Obligations.SetKeySetsOneKey : Prop :=
  ∀ (k : Reg) (b : Bool) (s : State),
    (∀ j : Reg, (setKey k b s).key j = if j = k then b else s.key j) ∧ KeepsAllBut [.keys] s (setKey k b s) ∧
      setKey k false (setKey k true s) = setKey k false s

/-- 70_reset_and_hazards.md R151 to R153 (D22, D23 for PC and AW; log 5): every field after init, with any parameters:
the font at `FONT_BASE` and 0x00 elsewhere, and everything else zero, false or none. -/
def Obligations.InitGivesTheResetTable : Prop :=
  State.reset = State.init Config.Params.default 0 ∧
  ∀ (p : Config.Params) (n : Nat) (s : State), s = State.init p n →
    (∀ j : Fin 80, s.readByte (p.fontBase.val + j.val) = p.fontData[j.val]) ∧
    (∀ a : Nat, a < p.fontBase.val ∨ p.fontBase.val + 80 ≤ a → s.readByte a = 0) ∧
    (∀ x : Reg, s.readV x = 0) ∧ s.i = 0 ∧ s.pc = 0 ∧ (∀ j : Fin 16, s.stack[j.val] = 0) ∧ s.sp = 0 ∧ s.dt = 0 ∧
    s.st = 0 ∧ (∀ (px : Fin 64) (py : Fin 32), s.fb.get px py = false) ∧ (∀ k : Reg, s.key k = false) ∧ s.aw = none

/-- 70_reset_and_hazards.md, load (C1, D23, D24, log 18): a load that fits, at the offset given or at the default 0x200,
resets everything, puts its bytes verbatim at the offset, and sets PC to the offset; SP is 0. -/
def Obligations.LoadResetsAndWritesTheProgram : Prop :=
  ∀ (bytes : List Byte) (given : Option Nat) (offset : Nat) (s : State), offset = given.getD 0x200 → offset ≤ 0xFFF →
    offset + bytes.length ≤ 4096 →
    ∃ t, hostOp (.load bytes given) s = .next (t, .loaded) ∧ t.pc.toNat = offset ∧ t.sp.val = 0 ∧
      (∀ (j : Nat) (h : j < bytes.length), t.readByte (offset + j) = bytes[j]) ∧
      (∀ a : Nat, a < offset ∨ offset + bytes.length ≤ a →
        t.readByte a = (State.init s.params s.draws).readByte a) ∧
      KeepsAllBut [.pc, .mem] (State.init s.params s.draws) t

/-- 70_reset_and_hazards.md, load (D24, log 18): the two load errors, the offset's first, and the state unchanged; the
offset is the one given or the default 0x200. -/
def Obligations.RejectedLoadChangesNothing : Prop :=
  ∀ (bytes : List Byte) (given : Option Nat) (offset : Nat) (s : State), offset = given.getD 0x200 →
    (offset > 0xFFF → hostOp (.load bytes given) s = .next (s, .loadError (.addressOutOfRange offset))) ∧
    (offset ≤ 0xFFF → offset + bytes.length > 4096 →
      hostOp (.load bytes given) s = .next (s, .loadError .programTooLarge))

/-- 60_exceptions.md R141 (D38): the accessors change nothing, and the snapshot's memory is all 4096 bytes. -/
def Obligations.AccessorsOnlyRead : Prop :=
  ∀ s : State, hostOp .frameBuffer s = .next (s, .frame s.fb) ∧ hostOp .soundTimer s = .next (s, .sound s.st) ∧
    ∃ sn, hostOp .snapshot s = .next (s, .snap sn) ∧ sn.mem.length = 4096 ∧
      (∀ a : Nat, a < 4096 → sn.mem.getD a 0 = s.readByte a) ∧ sn.v = s.v ∧ sn.i = s.i ∧ sn.pc = s.pc ∧
      sn.stack = s.stack ∧ sn.sp = s.sp ∧ sn.dt = s.dt ∧ sn.st = s.st ∧ sn.aw = s.aw

/-- 10_state.md section 11, 70_reset_and_hazards.md section 2 (D21, log 3, log 4; what init does to parameters and oracle is
log 25): no host operation changes the parameters or reseeds the oracle. -/
def Obligations.ParametersAndOracleOutliveEverything : Prop :=
  ∀ (op : HostOp) (s t : State) (r : HostReply), hostOp op s = .next (t, r) →
    t.params = s.params ∧ s.draws ≤ t.draws

/-- The host's probe (the model's own, log 6): the instruction placed by `withFetchWord` is the one the very next step
runs. -/
def Obligations.PlacedWordRunsNext : Prop :=
  ∀ (s : State) (w : Nat) (i : Instr), decodeTableWord 16 w = some i →
    step (s.withFetchWord 16 w) = exec i (s.withFetchWord 16 w).addTwo

/-- 10_state.md R45 (with log 7 for the canonical form of memory, which R45 does not give, and R94 for the slots): from every
state that meets the invariant, every host operation leaves one that meets it. -/
def Obligations.HostOperationsKeepTheInvariant : Prop :=
  ∀ (op : HostOp) (s t : State) (r : HostReply), StateInv s → hostOp op s = .next (t, r) → StateInv t

/-- 60_exceptions.md sections 9 and 12 (D35, D44, log 24) and 10_state.md section 13 (with log 7 for the canonical form of
memory, which it does not give, and R94 for the slots): an observation under any sequence of host operations never lacks a
move and keeps the invariant; and the idle loop is safe under every sequence of steps, ticks, key changes and accessors.
The reason `noMove`, and that `Safe` leaves out init and load (`KeepsProgram`), are the model's own choice (log 26). -/
def Obligations.ObservationsHoldUnderEveryHost : Prop :=
  (∀ (ops : List HostOp) (s : State), (observe ops s).1 ≠ .noMove ∧ (StateInv s → StateInv (observe ops s).2)) ∧
  ∀ s : State, s.aw = none → s.pc.toNat < 0xFFF → fetch s = .ok (0x1#4 ++ BitVec.ofNat 12 s.pc.toNat) → Safe s
end

