-- ==== Sys2Proof/Laws/Decode.lean ====
section
/-! SUPPORT. The fields of a word put together from its fields (30_encoding.md R65). -/

namespace Sys2Proof

@[simp] theorem regOfBits_regBits (r : Reg) : regOfBits (regBits r) = r := by revert r; decide

@[simp] theorem regBits_regOfBits (b : BitVec 4) : regBits (regOfBits b) = b := by revert b; decide

/-! ## Fields and words as numbers -/

theorem toNat_fieldH (w : Word) : (fieldH w).toNat = w.toNat / 4096 := by
  have := w.isLt
  simp only [fieldH, BitVec.extractLsb'_toNat, Nat.shiftRight_eq_div_pow]; omega

theorem val_fieldX (w : Word) : (fieldX w).val = w.toNat / 256 % 16 := by
  simp only [fieldX, regOfBits, BitVec.extractLsb'_toNat, Nat.shiftRight_eq_div_pow]

theorem val_fieldY (w : Word) : (fieldY w).val = w.toNat / 16 % 16 := by
  simp only [fieldY, regOfBits, BitVec.extractLsb'_toNat, Nat.shiftRight_eq_div_pow]

theorem toNat_fieldN (w : Word) : (fieldN w).toNat = w.toNat % 16 := by
  simp only [fieldN, BitVec.extractLsb'_toNat, Nat.shiftRight_zero]

theorem toNat_fieldKK (w : Word) : (fieldKK w).toNat = w.toNat % 256 := by
  simp only [fieldKK, BitVec.extractLsb'_toNat, Nat.shiftRight_zero]

theorem toNat_fieldNNN (w : Word) : (fieldNNN w).toNat = w.toNat % 4096 := by
  simp only [fieldNNN, BitVec.extractLsb'_toNat, Nat.shiftRight_zero]

theorem toNat_regBits (r : Reg) : (regBits r).toNat = r.val := by revert r; decide

/-- The value of a concatenation. -/
theorem toNat_append_eq {n m : Nat} (a : BitVec n) (b : BitVec m) : (a ++ b).toNat = a.toNat * 2 ^ m + b.toNat := by
  rw [BitVec.toNat_append, ← Nat.shiftLeft_add_eq_or_of_lt b.isLt, Nat.shiftLeft_eq]

/-- The value of a word in the format NNN. -/
theorem toNat_word_nnn (h : BitVec 4) (nnn : BitVec 12) :
    BitVec.toNat (w := 16) (h ++ nnn) = h.toNat * 4096 + nnn.toNat := toNat_append_eq h nnn

/-- The value of a word in the formats XKK and X. -/
theorem toNat_word_xkk (h : BitVec 4) (x : Reg) (kk : Byte) :
    BitVec.toNat (w := 16) (h ++ regBits x ++ kk) = h.toNat * 4096 + x.val * 256 + kk.toNat := by
  have h1 := toNat_append_eq (h ++ regBits x) kk
  have h2 := toNat_append_eq h (regBits x)
  rw [toNat_regBits] at h2
  rw [h2] at h1
  refine h1.trans ?_
  omega

/-- The value of a word in the formats XY and XYN. -/
theorem toNat_word_xyn (h : BitVec 4) (x y : Reg) (n : BitVec 4) :
    BitVec.toNat (w := 16) (h ++ regBits x ++ regBits y ++ n) =
      h.toNat * 4096 + x.val * 256 + y.val * 16 + n.toNat := by
  have h1 := toNat_append_eq (h ++ regBits x ++ regBits y) n
  have h2 := toNat_append_eq (h ++ regBits x) (regBits y)
  have h3 := toNat_append_eq h (regBits x)
  rw [toNat_regBits] at h2 h3
  rw [h3] at h2
  rw [h2] at h1
  refine h1.trans ?_
  omega

/-- Two words of one value are one word. -/
theorem word_ext {w w' : Word} (h : w.toNat = w'.toNat) : w = w' := BitVec.eq_of_toNat_eq h

/-! ## The fields of a word put together -/

theorem fieldH_nnn (h : BitVec 4) (nnn : BitVec 12) : fieldH (h ++ nnn) = h := by
  apply BitVec.eq_of_toNat_eq
  have := nnn.isLt
  rw [toNat_fieldH, toNat_word_nnn]; omega

theorem fieldNNN_nnn (h : BitVec 4) (nnn : BitVec 12) : fieldNNN (h ++ nnn) = nnn := by
  apply BitVec.eq_of_toNat_eq
  have := nnn.isLt
  rw [toNat_fieldNNN, toNat_word_nnn]; omega

theorem fieldH_xkk (h : BitVec 4) (x : Reg) (kk : Byte) : fieldH (h ++ regBits x ++ kk) = h := by
  apply BitVec.eq_of_toNat_eq
  have := kk.isLt
  have := x.isLt
  rw [toNat_fieldH, toNat_word_xkk]; omega

theorem fieldX_xkk (h : BitVec 4) (x : Reg) (kk : Byte) : fieldX (h ++ regBits x ++ kk) = x := by
  apply Fin.ext
  have := kk.isLt
  have := x.isLt
  rw [val_fieldX, toNat_word_xkk]; omega

theorem fieldKK_xkk (h : BitVec 4) (x : Reg) (kk : Byte) : fieldKK (h ++ regBits x ++ kk) = kk := by
  apply BitVec.eq_of_toNat_eq
  have := kk.isLt
  rw [toNat_fieldKK, toNat_word_xkk]; omega

theorem fieldH_xyn (h : BitVec 4) (x y : Reg) (n : BitVec 4) :
    fieldH (h ++ regBits x ++ regBits y ++ n) = h := by
  apply BitVec.eq_of_toNat_eq
  have := n.isLt
  have := x.isLt
  have := y.isLt
  rw [toNat_fieldH, toNat_word_xyn]; omega

theorem fieldX_xyn (h : BitVec 4) (x y : Reg) (n : BitVec 4) :
    fieldX (h ++ regBits x ++ regBits y ++ n) = x := by
  apply Fin.ext
  have := n.isLt
  have := x.isLt
  have := y.isLt
  rw [val_fieldX, toNat_word_xyn]; omega

theorem fieldY_xyn (h : BitVec 4) (x y : Reg) (n : BitVec 4) :
    fieldY (h ++ regBits x ++ regBits y ++ n) = y := by
  apply Fin.ext
  have := n.isLt
  have := y.isLt
  rw [val_fieldY, toNat_word_xyn]; omega

theorem fieldN_xyn (h : BitVec 4) (x y : Reg) (n : BitVec 4) :
    fieldN (h ++ regBits x ++ regBits y ++ n) = n := by
  apply BitVec.eq_of_toNat_eq
  have := n.isLt
  rw [toNat_fieldN, toNat_word_xyn]; omega

/-! ## Bytes -/

/-- The two bytes of a word make the word again (20_memory.md R53). -/
theorem wordOfBytes_bytesOfWord (w : Word) : wordOfBytes (w.extractLsb' 8 8) (w.extractLsb' 0 8) = w := by
  unfold wordOfBytes
  apply BitVec.eq_of_getLsbD_eq
  intro j hj
  rw [BitVec.getLsbD_append]
  by_cases h : j < 8
  · simp [h]
  · have : j - 8 < 8 := by omega
    simp [h, this]; congr 1; omega

/-- The bytes of a decoded word decode to the same instruction. -/
theorem decodeBytes_bytesOfWord (w : Word) (i : Instr) (h : decode w = some i) :
    decodeBytes (bytesOfWord w) = .instr i [] := by
  simp [bytesOfWord, decodeBytes, wordOfBytes_bytesOfWord, h]

/-- The host's table word decodes as the word itself does. -/
theorem decodeTableWord_eq (nbits w : Nat) : decodeTableWord nbits w = decode (tableWord nbits w) := by
  unfold decodeTableWord bytesOfWord decodeBytes
  simp only [wordOfBytes_bytesOfWord]
  cases decode (tableWord nbits w) <;> rfl

end Sys2Proof
end

