-- ==== Sys2Proof/Laws/State.lean ====
section
/-! SUPPORT. What each update of the state leaves of each field: one lemma per field per update. -/

namespace Sys2Proof.Machine

@[simp] theorem State.writeByte_params (s : State) (a : Nat) (b : Byte) : (s.writeByte a b).params = s.params := rfl
@[simp] theorem State.writeByte_v (s : State) (a : Nat) (b : Byte) : (s.writeByte a b).v = s.v := rfl
@[simp] theorem State.writeByte_i (s : State) (a : Nat) (b : Byte) : (s.writeByte a b).i = s.i := rfl
@[simp] theorem State.writeByte_pc (s : State) (a : Nat) (b : Byte) : (s.writeByte a b).pc = s.pc := rfl
@[simp] theorem State.writeByte_stack (s : State) (a : Nat) (b : Byte) : (s.writeByte a b).stack = s.stack := rfl
@[simp] theorem State.writeByte_sp (s : State) (a : Nat) (b : Byte) : (s.writeByte a b).sp = s.sp := rfl
@[simp] theorem State.writeByte_dt (s : State) (a : Nat) (b : Byte) : (s.writeByte a b).dt = s.dt := rfl
@[simp] theorem State.writeByte_st (s : State) (a : Nat) (b : Byte) : (s.writeByte a b).st = s.st := rfl
@[simp] theorem State.writeByte_fb (s : State) (a : Nat) (b : Byte) : (s.writeByte a b).fb = s.fb := rfl
@[simp] theorem State.writeByte_keys (s : State) (a : Nat) (b : Byte) : (s.writeByte a b).keys = s.keys := rfl
@[simp] theorem State.writeByte_aw (s : State) (a : Nat) (b : Byte) : (s.writeByte a b).aw = s.aw := rfl
@[simp] theorem State.writeByte_seenKeys (s : State) (a : Nat) (b : Byte) : (s.writeByte a b).seenKeys = s.seenKeys := rfl
@[simp] theorem State.writeByte_draws (s : State) (a : Nat) (b : Byte) : (s.writeByte a b).draws = s.draws := rfl
@[simp] theorem State.writeByte_lastResult (s : State) (a : Nat) (b : Byte) : (s.writeByte a b).lastResult = s.lastResult := rfl

@[simp] theorem State.writeV_params (s : State) (x : Reg) (b : Byte) : (s.writeV x b).params = s.params := rfl
@[simp] theorem State.writeV_mem (s : State) (x : Reg) (b : Byte) : (s.writeV x b).mem = s.mem := rfl
@[simp] theorem State.writeV_i (s : State) (x : Reg) (b : Byte) : (s.writeV x b).i = s.i := rfl
@[simp] theorem State.writeV_pc (s : State) (x : Reg) (b : Byte) : (s.writeV x b).pc = s.pc := rfl
@[simp] theorem State.writeV_stack (s : State) (x : Reg) (b : Byte) : (s.writeV x b).stack = s.stack := rfl
@[simp] theorem State.writeV_sp (s : State) (x : Reg) (b : Byte) : (s.writeV x b).sp = s.sp := rfl
@[simp] theorem State.writeV_dt (s : State) (x : Reg) (b : Byte) : (s.writeV x b).dt = s.dt := rfl
@[simp] theorem State.writeV_st (s : State) (x : Reg) (b : Byte) : (s.writeV x b).st = s.st := rfl
@[simp] theorem State.writeV_fb (s : State) (x : Reg) (b : Byte) : (s.writeV x b).fb = s.fb := rfl
@[simp] theorem State.writeV_keys (s : State) (x : Reg) (b : Byte) : (s.writeV x b).keys = s.keys := rfl
@[simp] theorem State.writeV_aw (s : State) (x : Reg) (b : Byte) : (s.writeV x b).aw = s.aw := rfl
@[simp] theorem State.writeV_seenKeys (s : State) (x : Reg) (b : Byte) : (s.writeV x b).seenKeys = s.seenKeys := rfl
@[simp] theorem State.writeV_draws (s : State) (x : Reg) (b : Byte) : (s.writeV x b).draws = s.draws := rfl
@[simp] theorem State.writeV_lastResult (s : State) (x : Reg) (b : Byte) : (s.writeV x b).lastResult = s.lastResult := rfl

@[simp] theorem State.writeVFlag_params (s : State) (x : Reg) (b c : Byte) : (s.writeVFlag x b c).params = s.params := rfl
@[simp] theorem State.writeVFlag_mem (s : State) (x : Reg) (b c : Byte) : (s.writeVFlag x b c).mem = s.mem := rfl
@[simp] theorem State.writeVFlag_i (s : State) (x : Reg) (b c : Byte) : (s.writeVFlag x b c).i = s.i := rfl
@[simp] theorem State.writeVFlag_pc (s : State) (x : Reg) (b c : Byte) : (s.writeVFlag x b c).pc = s.pc := rfl
@[simp] theorem State.writeVFlag_stack (s : State) (x : Reg) (b c : Byte) : (s.writeVFlag x b c).stack = s.stack := rfl
@[simp] theorem State.writeVFlag_sp (s : State) (x : Reg) (b c : Byte) : (s.writeVFlag x b c).sp = s.sp := rfl
@[simp] theorem State.writeVFlag_dt (s : State) (x : Reg) (b c : Byte) : (s.writeVFlag x b c).dt = s.dt := rfl
@[simp] theorem State.writeVFlag_st (s : State) (x : Reg) (b c : Byte) : (s.writeVFlag x b c).st = s.st := rfl
@[simp] theorem State.writeVFlag_fb (s : State) (x : Reg) (b c : Byte) : (s.writeVFlag x b c).fb = s.fb := rfl
@[simp] theorem State.writeVFlag_keys (s : State) (x : Reg) (b c : Byte) : (s.writeVFlag x b c).keys = s.keys := rfl
@[simp] theorem State.writeVFlag_aw (s : State) (x : Reg) (b c : Byte) : (s.writeVFlag x b c).aw = s.aw := rfl
@[simp] theorem State.writeVFlag_seenKeys (s : State) (x : Reg) (b c : Byte) : (s.writeVFlag x b c).seenKeys = s.seenKeys := rfl
@[simp] theorem State.writeVFlag_draws (s : State) (x : Reg) (b c : Byte) : (s.writeVFlag x b c).draws = s.draws := rfl
@[simp] theorem State.writeVFlag_lastResult (s : State) (x : Reg) (b c : Byte) : (s.writeVFlag x b c).lastResult = s.lastResult := rfl

@[simp] theorem State.writePC_params (s : State) (n : Nat) : (s.writePC n).params = s.params := rfl
@[simp] theorem State.writePC_mem (s : State) (n : Nat) : (s.writePC n).mem = s.mem := rfl
@[simp] theorem State.writePC_v (s : State) (n : Nat) : (s.writePC n).v = s.v := rfl
@[simp] theorem State.writePC_i (s : State) (n : Nat) : (s.writePC n).i = s.i := rfl
@[simp] theorem State.writePC_stack (s : State) (n : Nat) : (s.writePC n).stack = s.stack := rfl
@[simp] theorem State.writePC_sp (s : State) (n : Nat) : (s.writePC n).sp = s.sp := rfl
@[simp] theorem State.writePC_dt (s : State) (n : Nat) : (s.writePC n).dt = s.dt := rfl
@[simp] theorem State.writePC_st (s : State) (n : Nat) : (s.writePC n).st = s.st := rfl
@[simp] theorem State.writePC_fb (s : State) (n : Nat) : (s.writePC n).fb = s.fb := rfl
@[simp] theorem State.writePC_keys (s : State) (n : Nat) : (s.writePC n).keys = s.keys := rfl
@[simp] theorem State.writePC_aw (s : State) (n : Nat) : (s.writePC n).aw = s.aw := rfl
@[simp] theorem State.writePC_seenKeys (s : State) (n : Nat) : (s.writePC n).seenKeys = s.seenKeys := rfl
@[simp] theorem State.writePC_draws (s : State) (n : Nat) : (s.writePC n).draws = s.draws := rfl
@[simp] theorem State.writePC_lastResult (s : State) (n : Nat) : (s.writePC n).lastResult = s.lastResult := rfl

@[simp] theorem State.writeI_params (s : State) (n : Nat) : (s.writeI n).params = s.params := rfl
@[simp] theorem State.writeI_mem (s : State) (n : Nat) : (s.writeI n).mem = s.mem := rfl
@[simp] theorem State.writeI_v (s : State) (n : Nat) : (s.writeI n).v = s.v := rfl
@[simp] theorem State.writeI_pc (s : State) (n : Nat) : (s.writeI n).pc = s.pc := rfl
@[simp] theorem State.writeI_stack (s : State) (n : Nat) : (s.writeI n).stack = s.stack := rfl
@[simp] theorem State.writeI_sp (s : State) (n : Nat) : (s.writeI n).sp = s.sp := rfl
@[simp] theorem State.writeI_dt (s : State) (n : Nat) : (s.writeI n).dt = s.dt := rfl
@[simp] theorem State.writeI_st (s : State) (n : Nat) : (s.writeI n).st = s.st := rfl
@[simp] theorem State.writeI_fb (s : State) (n : Nat) : (s.writeI n).fb = s.fb := rfl
@[simp] theorem State.writeI_keys (s : State) (n : Nat) : (s.writeI n).keys = s.keys := rfl
@[simp] theorem State.writeI_aw (s : State) (n : Nat) : (s.writeI n).aw = s.aw := rfl
@[simp] theorem State.writeI_seenKeys (s : State) (n : Nat) : (s.writeI n).seenKeys = s.seenKeys := rfl
@[simp] theorem State.writeI_draws (s : State) (n : Nat) : (s.writeI n).draws = s.draws := rfl
@[simp] theorem State.writeI_lastResult (s : State) (n : Nat) : (s.writeI n).lastResult = s.lastResult := rfl

@[simp] theorem State.addTwo_params (s : State) : (s.addTwo).params = s.params := rfl
@[simp] theorem State.addTwo_mem (s : State) : (s.addTwo).mem = s.mem := rfl
@[simp] theorem State.addTwo_v (s : State) : (s.addTwo).v = s.v := rfl
@[simp] theorem State.addTwo_i (s : State) : (s.addTwo).i = s.i := rfl
@[simp] theorem State.addTwo_stack (s : State) : (s.addTwo).stack = s.stack := rfl
@[simp] theorem State.addTwo_sp (s : State) : (s.addTwo).sp = s.sp := rfl
@[simp] theorem State.addTwo_dt (s : State) : (s.addTwo).dt = s.dt := rfl
@[simp] theorem State.addTwo_st (s : State) : (s.addTwo).st = s.st := rfl
@[simp] theorem State.addTwo_fb (s : State) : (s.addTwo).fb = s.fb := rfl
@[simp] theorem State.addTwo_keys (s : State) : (s.addTwo).keys = s.keys := rfl
@[simp] theorem State.addTwo_aw (s : State) : (s.addTwo).aw = s.aw := rfl
@[simp] theorem State.addTwo_seenKeys (s : State) : (s.addTwo).seenKeys = s.seenKeys := rfl
@[simp] theorem State.addTwo_draws (s : State) : (s.addTwo).draws = s.draws := rfl
@[simp] theorem State.addTwo_lastResult (s : State) : (s.addTwo).lastResult = s.lastResult := rfl

/-- A block store changes memory only. -/
theorem State.writeBytes_eq (s : State) (a : Nat) (bs : List Byte) :
    s.writeBytes a bs = { s with mem := (s.writeBytes a bs).mem } := by
  induction bs generalizing s a with
  | nil => rfl
  | cons b bs ih => exact ih (s.writeByte a b) (a + 1)

@[simp] theorem State.writeBytes_params (s : State) (a : Nat) (bs : List Byte) : (s.writeBytes a bs).params = s.params := by rw [State.writeBytes_eq]
@[simp] theorem State.writeBytes_v (s : State) (a : Nat) (bs : List Byte) : (s.writeBytes a bs).v = s.v := by rw [State.writeBytes_eq]
@[simp] theorem State.writeBytes_i (s : State) (a : Nat) (bs : List Byte) : (s.writeBytes a bs).i = s.i := by rw [State.writeBytes_eq]
@[simp] theorem State.writeBytes_pc (s : State) (a : Nat) (bs : List Byte) : (s.writeBytes a bs).pc = s.pc := by rw [State.writeBytes_eq]
@[simp] theorem State.writeBytes_stack (s : State) (a : Nat) (bs : List Byte) : (s.writeBytes a bs).stack = s.stack := by rw [State.writeBytes_eq]
@[simp] theorem State.writeBytes_sp (s : State) (a : Nat) (bs : List Byte) : (s.writeBytes a bs).sp = s.sp := by rw [State.writeBytes_eq]
@[simp] theorem State.writeBytes_dt (s : State) (a : Nat) (bs : List Byte) : (s.writeBytes a bs).dt = s.dt := by rw [State.writeBytes_eq]
@[simp] theorem State.writeBytes_st (s : State) (a : Nat) (bs : List Byte) : (s.writeBytes a bs).st = s.st := by rw [State.writeBytes_eq]
@[simp] theorem State.writeBytes_fb (s : State) (a : Nat) (bs : List Byte) : (s.writeBytes a bs).fb = s.fb := by rw [State.writeBytes_eq]
@[simp] theorem State.writeBytes_keys (s : State) (a : Nat) (bs : List Byte) : (s.writeBytes a bs).keys = s.keys := by rw [State.writeBytes_eq]
@[simp] theorem State.writeBytes_aw (s : State) (a : Nat) (bs : List Byte) : (s.writeBytes a bs).aw = s.aw := by rw [State.writeBytes_eq]
@[simp] theorem State.writeBytes_seenKeys (s : State) (a : Nat) (bs : List Byte) : (s.writeBytes a bs).seenKeys = s.seenKeys := by rw [State.writeBytes_eq]
@[simp] theorem State.writeBytes_draws (s : State) (a : Nat) (bs : List Byte) : (s.writeBytes a bs).draws = s.draws := by rw [State.writeBytes_eq]
@[simp] theorem State.writeBytes_lastResult (s : State) (a : Nat) (bs : List Byte) : (s.writeBytes a bs).lastResult = s.lastResult := by rw [State.writeBytes_eq]

@[simp] theorem State.skipIf_params (s : State) (c : Bool) : (s.skipIf c).params = s.params := by cases c <;> rfl
@[simp] theorem State.skipIf_mem (s : State) (c : Bool) : (s.skipIf c).mem = s.mem := by cases c <;> rfl
@[simp] theorem State.skipIf_v (s : State) (c : Bool) : (s.skipIf c).v = s.v := by cases c <;> rfl
@[simp] theorem State.skipIf_i (s : State) (c : Bool) : (s.skipIf c).i = s.i := by cases c <;> rfl
@[simp] theorem State.skipIf_stack (s : State) (c : Bool) : (s.skipIf c).stack = s.stack := by cases c <;> rfl
@[simp] theorem State.skipIf_sp (s : State) (c : Bool) : (s.skipIf c).sp = s.sp := by cases c <;> rfl
@[simp] theorem State.skipIf_dt (s : State) (c : Bool) : (s.skipIf c).dt = s.dt := by cases c <;> rfl
@[simp] theorem State.skipIf_st (s : State) (c : Bool) : (s.skipIf c).st = s.st := by cases c <;> rfl
@[simp] theorem State.skipIf_fb (s : State) (c : Bool) : (s.skipIf c).fb = s.fb := by cases c <;> rfl
@[simp] theorem State.skipIf_keys (s : State) (c : Bool) : (s.skipIf c).keys = s.keys := by cases c <;> rfl
@[simp] theorem State.skipIf_aw (s : State) (c : Bool) : (s.skipIf c).aw = s.aw := by cases c <;> rfl
@[simp] theorem State.skipIf_seenKeys (s : State) (c : Bool) : (s.skipIf c).seenKeys = s.seenKeys := by cases c <;> rfl
@[simp] theorem State.skipIf_draws (s : State) (c : Bool) : (s.skipIf c).draws = s.draws := by cases c <;> rfl
@[simp] theorem State.skipIf_lastResult (s : State) (c : Bool) : (s.skipIf c).lastResult = s.lastResult := by cases c <;> rfl

@[simp] theorem State.afterLogic_params (s : State) : (s.afterLogic).params = s.params := by unfold State.afterLogic; split <;> rfl
@[simp] theorem State.afterLogic_mem (s : State) : (s.afterLogic).mem = s.mem := by unfold State.afterLogic; split <;> rfl
@[simp] theorem State.afterLogic_i (s : State) : (s.afterLogic).i = s.i := by unfold State.afterLogic; split <;> rfl
@[simp] theorem State.afterLogic_pc (s : State) : (s.afterLogic).pc = s.pc := by unfold State.afterLogic; split <;> rfl
@[simp] theorem State.afterLogic_stack (s : State) : (s.afterLogic).stack = s.stack := by unfold State.afterLogic; split <;> rfl
@[simp] theorem State.afterLogic_sp (s : State) : (s.afterLogic).sp = s.sp := by unfold State.afterLogic; split <;> rfl
@[simp] theorem State.afterLogic_dt (s : State) : (s.afterLogic).dt = s.dt := by unfold State.afterLogic; split <;> rfl
@[simp] theorem State.afterLogic_st (s : State) : (s.afterLogic).st = s.st := by unfold State.afterLogic; split <;> rfl
@[simp] theorem State.afterLogic_fb (s : State) : (s.afterLogic).fb = s.fb := by unfold State.afterLogic; split <;> rfl
@[simp] theorem State.afterLogic_keys (s : State) : (s.afterLogic).keys = s.keys := by unfold State.afterLogic; split <;> rfl
@[simp] theorem State.afterLogic_aw (s : State) : (s.afterLogic).aw = s.aw := by unfold State.afterLogic; split <;> rfl
@[simp] theorem State.afterLogic_seenKeys (s : State) : (s.afterLogic).seenKeys = s.seenKeys := by unfold State.afterLogic; split <;> rfl
@[simp] theorem State.afterLogic_draws (s : State) : (s.afterLogic).draws = s.draws := by unfold State.afterLogic; split <;> rfl
@[simp] theorem State.afterLogic_lastResult (s : State) : (s.afterLogic).lastResult = s.lastResult := by unfold State.afterLogic; split <;> rfl

@[simp] theorem State.afterBlock_params (s : State) (x : Reg) : (s.afterBlock x).params = s.params := by unfold State.afterBlock; split <;> rfl
@[simp] theorem State.afterBlock_mem (s : State) (x : Reg) : (s.afterBlock x).mem = s.mem := by unfold State.afterBlock; split <;> rfl
@[simp] theorem State.afterBlock_v (s : State) (x : Reg) : (s.afterBlock x).v = s.v := by unfold State.afterBlock; split <;> rfl
@[simp] theorem State.afterBlock_pc (s : State) (x : Reg) : (s.afterBlock x).pc = s.pc := by unfold State.afterBlock; split <;> rfl
@[simp] theorem State.afterBlock_stack (s : State) (x : Reg) : (s.afterBlock x).stack = s.stack := by unfold State.afterBlock; split <;> rfl
@[simp] theorem State.afterBlock_sp (s : State) (x : Reg) : (s.afterBlock x).sp = s.sp := by unfold State.afterBlock; split <;> rfl
@[simp] theorem State.afterBlock_dt (s : State) (x : Reg) : (s.afterBlock x).dt = s.dt := by unfold State.afterBlock; split <;> rfl
@[simp] theorem State.afterBlock_st (s : State) (x : Reg) : (s.afterBlock x).st = s.st := by unfold State.afterBlock; split <;> rfl
@[simp] theorem State.afterBlock_fb (s : State) (x : Reg) : (s.afterBlock x).fb = s.fb := by unfold State.afterBlock; split <;> rfl
@[simp] theorem State.afterBlock_keys (s : State) (x : Reg) : (s.afterBlock x).keys = s.keys := by unfold State.afterBlock; split <;> rfl
@[simp] theorem State.afterBlock_aw (s : State) (x : Reg) : (s.afterBlock x).aw = s.aw := by unfold State.afterBlock; split <;> rfl
@[simp] theorem State.afterBlock_seenKeys (s : State) (x : Reg) : (s.afterBlock x).seenKeys = s.seenKeys := by unfold State.afterBlock; split <;> rfl
@[simp] theorem State.afterBlock_draws (s : State) (x : Reg) : (s.afterBlock x).draws = s.draws := by unfold State.afterBlock; split <;> rfl
@[simp] theorem State.afterBlock_lastResult (s : State) (x : Reg) : (s.afterBlock x).lastResult = s.lastResult := by unfold State.afterBlock; split <;> rfl

@[simp] theorem drawByte_params (s : State) : ((drawByte s).2).params = s.params := rfl
@[simp] theorem drawByte_mem (s : State) : ((drawByte s).2).mem = s.mem := rfl
@[simp] theorem drawByte_v (s : State) : ((drawByte s).2).v = s.v := rfl
@[simp] theorem drawByte_i (s : State) : ((drawByte s).2).i = s.i := rfl
@[simp] theorem drawByte_pc (s : State) : ((drawByte s).2).pc = s.pc := rfl
@[simp] theorem drawByte_stack (s : State) : ((drawByte s).2).stack = s.stack := rfl
@[simp] theorem drawByte_sp (s : State) : ((drawByte s).2).sp = s.sp := rfl
@[simp] theorem drawByte_dt (s : State) : ((drawByte s).2).dt = s.dt := rfl
@[simp] theorem drawByte_st (s : State) : ((drawByte s).2).st = s.st := rfl
@[simp] theorem drawByte_fb (s : State) : ((drawByte s).2).fb = s.fb := rfl
@[simp] theorem drawByte_keys (s : State) : ((drawByte s).2).keys = s.keys := rfl
@[simp] theorem drawByte_aw (s : State) : ((drawByte s).2).aw = s.aw := rfl
@[simp] theorem drawByte_seenKeys (s : State) : ((drawByte s).2).seenKeys = s.seenKeys := rfl
@[simp] theorem drawByte_lastResult (s : State) : ((drawByte s).2).lastResult = s.lastResult := rfl

@[simp] theorem State.lookAtKeys_params (s : State) : (s.lookAtKeys).params = s.params := by unfold State.lookAtKeys; split <;> rfl
@[simp] theorem State.lookAtKeys_mem (s : State) : (s.lookAtKeys).mem = s.mem := by unfold State.lookAtKeys; split <;> rfl
@[simp] theorem State.lookAtKeys_v (s : State) : (s.lookAtKeys).v = s.v := by unfold State.lookAtKeys; split <;> rfl
@[simp] theorem State.lookAtKeys_i (s : State) : (s.lookAtKeys).i = s.i := by unfold State.lookAtKeys; split <;> rfl
@[simp] theorem State.lookAtKeys_pc (s : State) : (s.lookAtKeys).pc = s.pc := by unfold State.lookAtKeys; split <;> rfl
@[simp] theorem State.lookAtKeys_stack (s : State) : (s.lookAtKeys).stack = s.stack := by unfold State.lookAtKeys; split <;> rfl
@[simp] theorem State.lookAtKeys_sp (s : State) : (s.lookAtKeys).sp = s.sp := by unfold State.lookAtKeys; split <;> rfl
@[simp] theorem State.lookAtKeys_dt (s : State) : (s.lookAtKeys).dt = s.dt := by unfold State.lookAtKeys; split <;> rfl
@[simp] theorem State.lookAtKeys_st (s : State) : (s.lookAtKeys).st = s.st := by unfold State.lookAtKeys; split <;> rfl
@[simp] theorem State.lookAtKeys_fb (s : State) : (s.lookAtKeys).fb = s.fb := by unfold State.lookAtKeys; split <;> rfl
@[simp] theorem State.lookAtKeys_keys (s : State) : (s.lookAtKeys).keys = s.keys := by unfold State.lookAtKeys; split <;> rfl
@[simp] theorem State.lookAtKeys_aw (s : State) : (s.lookAtKeys).aw = s.aw := by unfold State.lookAtKeys; split <;> rfl
@[simp] theorem State.lookAtKeys_draws (s : State) : (s.lookAtKeys).draws = s.draws := by unfold State.lookAtKeys; split <;> rfl
@[simp] theorem State.lookAtKeys_lastResult (s : State) : (s.lookAtKeys).lastResult = s.lastResult := by unfold State.lookAtKeys; split <;> rfl

@[simp] theorem tickTimers_params (s : State) : (tickTimers s).params = s.params := rfl
@[simp] theorem tickTimers_mem (s : State) : (tickTimers s).mem = s.mem := rfl
@[simp] theorem tickTimers_v (s : State) : (tickTimers s).v = s.v := rfl
@[simp] theorem tickTimers_i (s : State) : (tickTimers s).i = s.i := rfl
@[simp] theorem tickTimers_pc (s : State) : (tickTimers s).pc = s.pc := rfl
@[simp] theorem tickTimers_stack (s : State) : (tickTimers s).stack = s.stack := rfl
@[simp] theorem tickTimers_sp (s : State) : (tickTimers s).sp = s.sp := rfl
@[simp] theorem tickTimers_fb (s : State) : (tickTimers s).fb = s.fb := rfl
@[simp] theorem tickTimers_keys (s : State) : (tickTimers s).keys = s.keys := rfl
@[simp] theorem tickTimers_aw (s : State) : (tickTimers s).aw = s.aw := rfl
@[simp] theorem tickTimers_seenKeys (s : State) : (tickTimers s).seenKeys = s.seenKeys := rfl
@[simp] theorem tickTimers_draws (s : State) : (tickTimers s).draws = s.draws := rfl
@[simp] theorem tickTimers_lastResult (s : State) : (tickTimers s).lastResult = s.lastResult := rfl

@[simp] theorem setKey_params (s : State) (k : Reg) (b : Bool) : (setKey k b s).params = s.params := rfl
@[simp] theorem setKey_mem (s : State) (k : Reg) (b : Bool) : (setKey k b s).mem = s.mem := rfl
@[simp] theorem setKey_v (s : State) (k : Reg) (b : Bool) : (setKey k b s).v = s.v := rfl
@[simp] theorem setKey_i (s : State) (k : Reg) (b : Bool) : (setKey k b s).i = s.i := rfl
@[simp] theorem setKey_pc (s : State) (k : Reg) (b : Bool) : (setKey k b s).pc = s.pc := rfl
@[simp] theorem setKey_stack (s : State) (k : Reg) (b : Bool) : (setKey k b s).stack = s.stack := rfl
@[simp] theorem setKey_sp (s : State) (k : Reg) (b : Bool) : (setKey k b s).sp = s.sp := rfl
@[simp] theorem setKey_dt (s : State) (k : Reg) (b : Bool) : (setKey k b s).dt = s.dt := rfl
@[simp] theorem setKey_st (s : State) (k : Reg) (b : Bool) : (setKey k b s).st = s.st := rfl
@[simp] theorem setKey_fb (s : State) (k : Reg) (b : Bool) : (setKey k b s).fb = s.fb := rfl
@[simp] theorem setKey_aw (s : State) (k : Reg) (b : Bool) : (setKey k b s).aw = s.aw := rfl
@[simp] theorem setKey_seenKeys (s : State) (k : Reg) (b : Bool) : (setKey k b s).seenKeys = s.seenKeys := rfl
@[simp] theorem setKey_draws (s : State) (k : Reg) (b : Bool) : (setKey k b s).draws = s.draws := rfl
@[simp] theorem setKey_lastResult (s : State) (k : Reg) (b : Bool) : (setKey k b s).lastResult = s.lastResult := rfl

@[simp] theorem drawByte_draws (s : State) : (drawByte s).2.draws = s.draws + 1 := rfl

@[simp] theorem State.writePC_pc (s : State) (n : Nat) : (s.writePC n).pc = BitVec.ofNat 16 (n % 0x1000) := rfl

@[simp] theorem State.writeI_i (s : State) (n : Nat) : (s.writeI n).i = BitVec.ofNat 16 (n % 0x1000) := rfl

@[simp] theorem State.addTwo_pc (s : State) : s.addTwo.pc = BitVec.ofNat 16 ((s.pc.toNat + 2) % 0x1000) := rfl

/-- The keys a wait remembers once it has looked (40_step_cycle.md R80; log 30). -/
theorem State.lookAtKeys_seenKeys (s : State) :
    s.lookAtKeys.seenKeys = if s.params.keyWaitSelect.sense = .edge then s.keys else s.seenKeys := by
  unfold State.lookAtKeys; cases s.params.keyWaitSelect.sense <;> rfl

/-- A level-sensitive wait changes nothing by looking (R80). -/
theorem State.lookAtKeys_level {s : State} (h : s.params.keyWaitSelect.sense = .level) : s.lookAtKeys = s := by
  unfold State.lookAtKeys; rw [h]

/-- A reduced value fits 16-bit storage. -/
theorem toNat_ofNat_mod (n : Nat) : (BitVec.ofNat 16 (n % 0x1000)).toNat = n % 0x1000 := by
  rw [BitVec.toNat_ofNat]; omega

/-- Every write of PC leaves it within 0x000 to 0xFFF (10_state.md R31). -/
theorem State.writePC_bound (s : State) (n : Nat) : (s.writePC n).pc.toNat ≤ 0xFFF := by
  rw [State.writePC_pc, toNat_ofNat_mod]; omega

/-- Every write of I leaves it within 0x000 to 0xFFF (10_state.md R29). -/
theorem State.writeI_bound (s : State) (n : Nat) : (s.writeI n).i.toNat ≤ 0xFFF := by
  rw [State.writeI_i, toNat_ofNat_mod]; omega

/-- PC after a conditional skip (41_control_flow.md R93). -/
theorem State.skipIf_pc (s : State) (c : Bool) :
    (s.skipIf c).pc = if c then BitVec.ofNat 16 ((s.pc.toNat + 2) % 0x1000) else s.pc := by cases c <;> rfl

/-- I after a block transfer (44_index_memory.md R121). -/
theorem State.afterBlock_i (s : State) (x : Reg) :
    (s.afterBlock x).i =
      if s.params.loadstoreIIncrement then BitVec.ofNat 16 ((s.i.toNat + x.val + 1) % 0x1000) else s.i := by
  unfold State.afterBlock; split <;> rfl

end Sys2Proof.Machine
end

