-- ==== Sys2Proof/Laws/Memory.lean ====
section
/-! SUPPORT. The laws of memory: a read after a write, and the canonical form that every operation keeps. -/

namespace Sys2Proof.Machine

open Sys2Proof.Config (Params)

theorem Memory.lookup_insert (a k : Nat) (b : Byte) (m : Memory) :
    Memory.lookup k (Memory.insert a b m) = if k = a then some b else Memory.lookup k m := by
  induction m with
  | nil => simp [Memory.insert, Memory.lookup]
  | cons c m ih =>
    unfold Memory.insert
    split
    · simp [Memory.lookup]
    · split
      · rename_i h; subst h; by_cases hk : k = c.1 <;> simp [Memory.lookup, hk]
      · rename_i h
        simp only [Memory.lookup, ih]
        by_cases hk : k = c.1
        · simp [hk, Ne.symm h]
        · simp [hk]

theorem Memory.lookup_erase (a k : Nat) (m : Memory) :
    Memory.lookup k (Memory.erase a m) = if k = a then none else Memory.lookup k m := by
  induction m with
  | nil => simp [Memory.erase, Memory.lookup]
  | cons c m ih =>
    unfold Memory.erase
    split
    · rename_i h; subst h
      rw [ih]
      by_cases hk : k = c.1 <;> simp [Memory.lookup, hk]
    · rename_i h
      simp only [Memory.lookup, ih]
      by_cases hk : k = c.1
      · simp [hk, Ne.symm h]
      · simp [hk]

/-- A read returns the last value written to its byte, and a write leaves every other byte alone (20_memory.md R50). -/
theorem Memory.read_write (p : Params) (m : Memory) (a k : Nat) (b : Byte) :
    Memory.read p (Memory.write p m a b) k = if k = a then b else Memory.read p m k := by
  unfold Memory.read Memory.write
  split
  · rename_i h
    rw [Memory.lookup_erase]
    by_cases hk : k = a <;> simp [hk, h]
  · rw [Memory.lookup_insert]
    by_cases hk : k = a <;> simp [hk]

/-- `M[k]` after `M[a] <- b`. -/
theorem State.readByte_writeByte (s : State) (a k : Nat) (b : Byte) :
    (s.writeByte a b).readByte k = if k = a then b else s.readByte k := Memory.read_write _ _ _ _ _

/-- Two states with one memory and the same parameters read alike. -/
theorem State.readByte_congr {s t : State} (hp : t.params = s.params) (hm : t.mem = s.mem) (a : Nat) :
    t.readByte a = s.readByte a := by unfold State.readByte; rw [hp, hm]

/-- What a block store leaves at every address (20_memory.md R48). -/
theorem State.readByte_writeBytes (s : State) (a : Nat) (bs : List Byte) (k : Nat) :
    (s.writeBytes a bs).readByte k =
      if a ≤ k ∧ k - a < bs.length then bs.getD (k - a) 0 else s.readByte k := by
  induction bs generalizing s a with
  | nil => simp [State.writeBytes]
  | cons b bs ih =>
    rw [State.writeBytes, ih, State.readByte_writeByte]
    rcases Nat.lt_trichotomy a k with h | h | h
    · obtain ⟨d, rfl⟩ : ∃ d, k = a + 1 + d := ⟨k - (a + 1), by omega⟩
      have e : a + 1 + d - a = d + 1 := by omega
      by_cases hd : d < bs.length <;> simp [e, hd] <;> omega
    · subst h; simp
    · have h1 : ¬ a ≤ k := by omega
      have h2 : ¬ a + 1 ≤ k := by omega
      have h3 : k ≠ a := by omega
      simp [h1, h2, h3]

@[simp] theorem State.readBytes_length (s : State) (a n : Nat) : (s.readBytes a n).length = n := by
  induction n generalizing a with
  | zero => rfl
  | succ n ih => simp [State.readBytes, ih]

/-- Byte `j` of a block read. -/
theorem State.readBytes_getD (s : State) (a n j : Nat) (h : j < n) :
    (s.readBytes a n).getD j 0 = s.readByte (a + j) := by
  induction n generalizing a j with
  | zero => omega
  | succ n ih =>
    cases j with
    | zero => simp [State.readBytes]
    | succ j =>
      rw [State.readBytes, List.getD_cons_succ, ih (a + 1) j (by omega)]
      congr 1; omega

/-- A block read sees memory only. -/
theorem State.readBytes_congr {s t : State} (h : ∀ a, t.readByte a = s.readByte a) (a n : Nat) :
    t.readBytes a n = s.readBytes a n := by
  induction n generalizing a with
  | zero => rfl
  | succ n ih => simp [State.readBytes, h, ih]

/-! ## The canonical form -/

theorem Memory.wfFrom_cons (p : Params) (lo : Nat) (c : Host.Cell) (m : Memory) :
    Memory.wfFrom p lo (c :: m) = true ↔
      lo ≤ c.1 ∧ c.1 < Config.memSize ∧ c.2 ≠ Memory.unlisted p c.1 ∧ Memory.wfFrom p (c.1 + 1) m = true := by
  simp [Memory.wfFrom, and_assoc]

theorem Memory.wfFrom_mono (p : Params) {lo lo' : Nat} (h : lo ≤ lo') (m : Memory)
    (hm : Memory.wfFrom p lo' m = true) : Memory.wfFrom p lo m = true := by
  cases m with
  | nil => rfl
  | cons c m =>
    rw [Memory.wfFrom_cons] at *
    exact ⟨by omega, hm.2⟩

theorem Memory.erase_wfFrom (p : Params) (a lo : Nat) (m : Memory) (h : Memory.wfFrom p lo m = true) :
    Memory.wfFrom p lo (Memory.erase a m) = true := by
  induction m generalizing lo with
  | nil => rfl
  | cons c m ih =>
    rw [Memory.wfFrom_cons] at h
    unfold Memory.erase
    split
    · exact Memory.wfFrom_mono p (by omega) _ (ih _ h.2.2.2)
    · rw [Memory.wfFrom_cons]; exact ⟨h.1, h.2.1, h.2.2.1, ih _ h.2.2.2⟩

theorem Memory.insert_wfFrom (p : Params) (a lo : Nat) (b : Byte) (m : Memory) (ha : a < Config.memSize)
    (hlo : lo ≤ a) (hb : b ≠ Memory.unlisted p a) (h : Memory.wfFrom p lo m = true) :
    Memory.wfFrom p lo (Memory.insert a b m) = true := by
  induction m generalizing lo with
  | nil => rw [Memory.insert, Memory.wfFrom_cons]; exact ⟨hlo, ha, hb, rfl⟩
  | cons c m ih =>
    rw [Memory.wfFrom_cons] at h
    unfold Memory.insert
    split
    · rename_i hlt
      rw [Memory.wfFrom_cons, Memory.wfFrom_cons]
      exact ⟨hlo, ha, hb, hlt, h.2.1, h.2.2.1, h.2.2.2⟩
    · split
      · rename_i _ heq
        rw [Memory.wfFrom_cons]
        exact ⟨hlo, ha, hb, by rw [heq]; exact h.2.2.2⟩
      · rw [Memory.wfFrom_cons]
        exact ⟨h.1, h.2.1, h.2.2.1, ih (c.1 + 1) (by omega) h.2.2.2⟩

/-- A store inside the address space keeps the canonical form. -/
theorem Memory.write_wf (p : Params) (m : Memory) (a : Nat) (b : Byte) (ha : a < Config.memSize)
    (h : Memory.wf p m = true) : Memory.wf p (Memory.write p m a b) = true := by
  unfold Memory.write
  split
  · exact Memory.erase_wfFrom p a 0 m h
  · rename_i hb; exact Memory.insert_wfFrom p a 0 b m ha (Nat.zero_le a) hb h

/-- A byte store inside the address space keeps the canonical form. -/
theorem State.writeByte_wf (s : State) (a : Nat) (b : Byte) (ha : a < Config.memSize)
    (h : Memory.wf s.params s.mem = true) : Memory.wf s.params (s.writeByte a b).mem = true :=
  Memory.write_wf s.params s.mem a b ha h

/-- A block store inside the address space keeps the canonical form. -/
theorem State.writeBytes_wf (s : State) (a : Nat) (bs : List Byte) (ha : a + bs.length ≤ Config.memSize)
    (h : Memory.wf s.params s.mem = true) : Memory.wf s.params (s.writeBytes a bs).mem = true := by
  induction bs generalizing s a with
  | nil => exact h
  | cons b bs ih =>
    rw [List.length_cons] at ha
    exact ih (s.writeByte a b) (a + 1) (by omega) (State.writeByte_wf s a b (by omega) h)

/-- The memory of the reset state has the canonical form. -/
theorem State.reset_mem_wf : Memory.wf State.reset.params State.reset.mem = true := rfl

/-- A canonical memory lists nothing below its bound. -/
theorem Memory.lookup_none_of_wfFrom (p : Params) (m : Memory) (lo a : Nat) (h : Memory.wfFrom p lo m = true)
    (ha : a < lo) : Memory.lookup a m = none := by
  induction m generalizing lo with
  | nil => rfl
  | cons c m ih =>
    rw [Memory.wfFrom_cons] at h
    rw [Memory.lookup, if_neg (by omega)]
    exact ih (c.1 + 1) h.2.2.2 (by omega)

/-- The first entry of a canonical memory reads differently from an unlisted byte. -/
theorem Memory.read_head_ne (p : Params) (lo : Nat) (c : Host.Cell) (m : Memory)
    (h : Memory.wfFrom p lo (c :: m) = true) : Memory.read p (c :: m) c.1 ≠ Memory.unlisted p c.1 := by
  rw [Memory.wfFrom_cons] at h
  simpa [Memory.read, Memory.lookup] using h.2.2.1

theorem Memory.read_below (p : Params) (m : Memory) (lo a : Nat) (h : Memory.wfFrom p lo m = true) (ha : a < lo) :
    Memory.read p m a = Memory.unlisted p a := by
  rw [Memory.read, Memory.lookup_none_of_wfFrom p m lo a h ha, Option.getD_none]

/-- Two canonical memories that read alike are equal data. -/
theorem Memory.eq_of_read (p : Params) (m m' : Memory) (lo : Nat) (h : Memory.wfFrom p lo m = true)
    (h' : Memory.wfFrom p lo m' = true) (hr : ∀ a, Memory.read p m a = Memory.read p m' a) : m = m' := by
  induction m generalizing m' lo with
  | nil =>
    cases m' with
    | nil => rfl
    | cons c m' => exact absurd (hr c.1).symm (Memory.read_head_ne p lo c m' h')
  | cons c m ih =>
    cases m' with
    | nil => exact absurd (hr c.1) (Memory.read_head_ne p lo c m h)
    | cons d m' =>
      have hc := Memory.read_head_ne p lo c m h
      have hd := Memory.read_head_ne p lo d m' h'
      have w := (Memory.wfFrom_cons p lo c m).1 h
      have w' := (Memory.wfFrom_cons p lo d m').1 h'
      have e : c.1 = d.1 := by
        rcases Nat.lt_trichotomy c.1 d.1 with hlt | heq | hgt
        · refine absurd ((hr c.1).trans ?_) hc
          exact Memory.read_below p (d :: m') d.1 c.1
            ((Memory.wfFrom_cons p d.1 d m').2 ⟨Nat.le_refl _, w'.2⟩) hlt
        · exact heq
        · refine absurd ((hr d.1).symm.trans ?_) hd
          exact Memory.read_below p (c :: m) c.1 d.1
            ((Memory.wfFrom_cons p c.1 c m).2 ⟨Nat.le_refl _, w.2⟩) hgt
      have v : c.2 = d.2 := by
        have := hr c.1
        simpa [Memory.read, Memory.lookup, e] using this
      have cd : c = d := Prod.ext e v
      subst cd
      congr 1
      refine ih m' (c.1 + 1) w.2.2.2 w'.2.2.2 (fun a => ?_)
      by_cases ha : a = c.1
      · rw [Memory.read_below p m _ a w.2.2.2 (by omega), Memory.read_below p m' _ a w'.2.2.2 (by omega)]
      · simpa [Memory.read, Memory.lookup, ha] using hr a

end Sys2Proof.Machine
end

