-- ==== Sys2Proof/Laws/Registers.lean ====
section
/-! SUPPORT. Reads after writes of the V registers, the keypad and the frame buffer. -/

namespace Sys2Proof.Machine

/-- A register reads as last written, and a write leaves every other register alone. -/
theorem State.readV_writeV (s : State) (x y : Reg) (b : Byte) :
    (s.writeV x b).readV y = if y = x then b else s.readV y := by
  simp only [State.readV, State.writeV, Vector.getElem_set, Fin.ext_iff, eq_comm]

@[simp] theorem State.readV_writeV_self (s : State) (x : Reg) (b : Byte) : (s.writeV x b).readV x = b := by
  rw [State.readV_writeV, if_pos rfl]

theorem State.readV_writeV_ne (s : State) {x y : Reg} (b : Byte) (h : y ≠ x) :
    (s.writeV x b).readV y = s.readV y := by rw [State.readV_writeV, if_neg h]

/-- Two states with one register file read alike. -/
theorem State.readV_congr {s t : State} (h : t.v = s.v) (x : Reg) : t.readV x = s.readV x := by
  unfold State.readV; rw [h]

/-- VF holds the flag after a flag write, whatever X is (10_state.md R27). -/
@[simp] theorem State.readV_writeVFlag_vf (s : State) (x : Reg) (b c : Byte) :
    (s.writeVFlag x b c).readV Reg.vf = c := State.readV_writeV_self _ _ _

/-- VX holds the result after a flag write, unless it is VF. -/
theorem State.readV_writeVFlag_self (s : State) {x : Reg} (b c : Byte) (h : x ≠ Reg.vf) :
    (s.writeVFlag x b c).readV x = b := by
  unfold State.writeVFlag; rw [State.readV_writeV_ne _ _ h, State.readV_writeV_self]

/-- A flag write leaves every register but VX and VF alone. -/
theorem State.readV_writeVFlag_ne (s : State) {x y : Reg} (b c : Byte) (hx : y ≠ x) (hf : y ≠ Reg.vf) :
    (s.writeVFlag x b c).readV y = s.readV y := by
  unfold State.writeVFlag; rw [State.readV_writeV_ne _ _ hf, State.readV_writeV_ne _ _ hx]

/-- The registers after the logic group's optional reset of VF (42_register_alu.md R106). -/
theorem State.readV_afterLogic (s : State) (y : Reg) :
    s.afterLogic.readV y = if s.params.logicVfReset ∧ y = Reg.vf then 0 else s.readV y := by
  unfold State.afterLogic
  cases h : s.params.logicVfReset <;> simp [State.readV_writeV]

/-- A block load from index `i`: register `j` takes the byte at place `j - i`, if the block reaches it. -/
theorem RegFile.load_getElem (v : RegFile) (i : Nat) (bs : List Byte) (j : Nat) (hj : j < 16) :
    (RegFile.load v i bs)[j] = if i ≤ j ∧ j - i < bs.length then bs.getD (j - i) 0 else v[j] := by
  induction bs generalizing v i with
  | nil => simp [RegFile.load]
  | cons b bs ih =>
    rw [RegFile.load, ih]
    rcases Nat.lt_trichotomy i j with h | h | h
    · obtain ⟨d, rfl⟩ : ∃ d, j = i + 1 + d := ⟨j - (i + 1), by omega⟩
      have e : i + 1 + d - i = d + 1 := by omega
      have hv : (if h : i < 16 then v.set i b h else v)[i + 1 + d] = v[i + 1 + d] := by
        split
        · rw [Vector.getElem_set, if_neg (by omega)]
        · rfl
      have e' : i + 1 + d - (i + 1) = d := by omega
      have l1 : i ≤ i + 1 + d := by omega
      have l2 : i + 1 ≤ i + 1 + d := by omega
      simp only [hv, e, e', l1, l2, List.length_cons, List.getD_cons_succ, true_and, Nat.add_lt_add_iff_right]
    · subst h
      have h2 : ¬ i + 1 ≤ i := by omega
      simp [hj, h2]
    · have h1 : ¬ i ≤ j := by omega
      have h2 : ¬ i + 1 ≤ j := by omega
      rw [if_neg (fun h => h2 h.1), if_neg (fun h => h1 h.1)]
      split
      · rw [Vector.getElem_set, if_neg (by omega)]
      · rfl

/-- The block of registers has one byte per register (44_index_memory.md R121). -/
@[simp] theorem State.regsUpTo_length (s : State) (x : Reg) : (s.regsUpTo x).length = x.val + 1 := by
  simp [State.regsUpTo]

/-- Byte `j` of the block is register `j` (44_index_memory.md R121). -/
theorem State.regsUpTo_getElem (s : State) (x j : Reg) (h : j.val < (s.regsUpTo x).length) :
    (s.regsUpTo x)[j.val] = s.readV j := by
  simp [State.regsUpTo, State.readV]

/-- A key reads as last set, and setting one leaves the others alone (60_exceptions.md R139). -/
theorem key_setKey (s : State) (k j : Reg) (b : Bool) : (setKey k b s).key j = if j = k then b else s.key j := by
  simp only [State.key, setKey, Vector.getElem_set, Fin.ext_iff, eq_comm]

/-- The index a mask within the low nibble gives (00_scope.md R9). -/
theorem maskedIndex_val (mask : BitVec 4) (b : Byte) : (maskedIndex mask b).val = (b &&& mask.setWidth 8).toNat := rfl

/-- With R9's mask, the low nibble is the index (45_timers_keypad.md R123). -/
theorem maskedIndex_lowNibble (b : Byte) : (maskedIndex 0xF b).val = b.toNat % 16 := by
  rw [maskedIndex_val, BitVec.toNat_and]
  exact Nat.and_two_pow_sub_one_eq_mod b.toNat 4

/-- With R9's mask, the low nibble is the digit (43_display.md R117). -/
theorem digitOperand_lowNibble {s : State} (h : s.params.fontDigitMask = 0x0F) (x : Reg) :
    digitOperand x s = (s.readV x).toNat % 16 := by
  rw [digitOperand, h, BitVec.toNat_and]
  exact Nat.and_two_pow_sub_one_eq_mod (s.readV x).toNat 4

/-- A pixel reads as last written, and a write leaves every other pixel alone. -/
theorem FrameBuffer.get_put (fb : FrameBuffer) (x x' : Fin 64) (y y' : Fin 32) (b : Bool) :
    (fb.put x y b).get x' y' = if x' = x ∧ y' = y then b else fb.get x' y' := by
  simp only [FrameBuffer.get, FrameBuffer.put, Vector.getElem_set, Fin.ext_iff]
  by_cases hx : x.val = x'.val <;> by_cases hy : y.val = y'.val <;> simp [hx, hy, eq_comm]

/-- Every pixel of the blank frame buffer is 0 (43_display.md R115). -/
@[simp] theorem FrameBuffer.get_blank (x : Fin 64) (y : Fin 32) : FrameBuffer.blank.get x y = false := by
  simp [FrameBuffer.get, FrameBuffer.blank]

end Sys2Proof.Machine
end

