-- ==== Sys2Proof/Laws/Draw.lean ====
section
/-! SUPPORT. Everything drawing a sprite can do to the frame buffer and the collision (43_display.md R116). -/

namespace Sys2Proof.Machine

/-- From `a` to `b` exactly the pixels of `hits` were flipped, and the collision was raised by those that held a 1. -/
structure Flips (hits : Fin 64 → Fin 32 → Prop) (a b : FrameBuffer × Bool) : Prop where
  flipped : ∀ x y, hits x y → b.1.get x y = !a.1.get x y
  kept : ∀ x y, ¬ hits x y → b.1.get x y = a.1.get x y
  collision : b.2 = true ↔ a.2 = true ∨ ∃ x y, hits x y ∧ a.1.get x y = true

theorem Flips.of_none {hits : Fin 64 → Fin 32 → Prop} (h : ∀ x y, ¬ hits x y) (a : FrameBuffer × Bool) :
    Flips hits a a :=
  ⟨fun x y hx => absurd hx (h x y), fun _ _ _ => rfl, ⟨.inl, fun hc => hc.elim id fun ⟨x, y, hx, _⟩ => absurd hx (h x y)⟩⟩

/-- Two flips of disjoint sets of pixels are one flip of their union. -/
theorem Flips.trans {h₁ h₂ hits : Fin 64 → Fin 32 → Prop} {a b c : FrameBuffer × Bool} (f : Flips h₁ a b)
    (g : Flips h₂ b c) (hd : ∀ x y, h₁ x y → ¬ h₂ x y) (hu : ∀ x y, hits x y ↔ h₁ x y ∨ h₂ x y) : Flips hits a c where
  flipped x y h := by
    rcases (hu x y).1 h with h1 | h2
    · rw [g.kept x y (hd x y h1), f.flipped x y h1]
    · rw [g.flipped x y h2, f.kept x y (fun h1 => hd x y h1 h2)]
  kept x y h := by
    rw [g.kept x y (fun h2 => h ((hu x y).2 (.inr h2))), f.kept x y (fun h1 => h ((hu x y).2 (.inl h1)))]
  collision := by
    rw [g.collision, f.collision]
    constructor
    · rintro ((h | ⟨x, y, h1, ha⟩) | ⟨x, y, h2, hb⟩)
      · exact .inl h
      · exact .inr ⟨x, y, (hu x y).2 (.inl h1), ha⟩
      · exact .inr ⟨x, y, (hu x y).2 (.inr h2), by rw [← f.kept x y (fun h1 => hd x y h1 h2)]; exact hb⟩
    · rintro (h | ⟨x, y, hxy, ha⟩)
      · exact .inl (.inl h)
      · rcases (hu x y).1 hxy with h1 | h2
        · exact .inl (.inr ⟨x, y, h1, ha⟩)
        · exact .inr ⟨x, y, h2, by rw [f.kept x y (fun h1 => hd x y h1 h2)]; exact ha⟩

/-- One pixel. -/
theorem flipPixel_flips (acc : FrameBuffer × Bool) (x : Fin 64) (y : Fin 32) :
    Flips (fun px py => px = x ∧ py = y) acc (flipPixel acc x y) where
  flipped px py h := by obtain ⟨rfl, rfl⟩ := h; simp [flipPixel, FrameBuffer.get_put]
  kept px py h := by rw [flipPixel, FrameBuffer.get_put, if_neg h]
  collision := by simp [flipPixel]

/-- The lowest `n` bits of one sprite row. -/
theorem drawBits_flips (bits : Byte) (x0 : Nat) (y : Fin 32) (n : Nat) (hn : n ≤ 8) (acc : FrameBuffer × Bool) :
    Flips (fun px py => py = y ∧ ∃ k, k < n ∧ bits.getLsbD k = true ∧ px.val = (x0 + (7 - k)) % 64) acc
      (drawBits bits x0 y n acc) := by
  induction n generalizing acc with
  | zero => exact Flips.of_none (by simp) acc
  | succ n ih =>
    have ih' := ih (by omega)
    rw [drawBits]
    split
    · rename_i hb
      refine (flipPixel_flips acc (column (x0 + (7 - n))) y).trans (ih' _) ?_ ?_
      · rintro px py ⟨rfl, rfl⟩ ⟨-, k, hk, -, e⟩
        simp only [column] at e
        omega
      · intro px py
        constructor
        · rintro ⟨rfl, k, hk, hbk, e⟩
          rcases Nat.lt_succ_iff_lt_or_eq.1 hk with h | rfl
          · exact .inr ⟨rfl, k, h, hbk, e⟩
          · exact .inl ⟨Fin.ext e, rfl⟩
        · rintro (⟨rfl, rfl⟩ | ⟨rfl, k, hk, hbk, e⟩)
          · exact ⟨rfl, n, by omega, hb, rfl⟩
          · exact ⟨rfl, k, by omega, hbk, e⟩
    · rename_i hb
      refine (Flips.of_none (hits := fun _ _ => False) (fun _ _ => id) acc).trans (ih' acc) (fun _ _ h => h.elim) ?_
      intro px py
      constructor
      · rintro ⟨rfl, k, hk, hbk, e⟩
        rcases Nat.lt_succ_iff_lt_or_eq.1 hk with h | rfl
        · exact .inr ⟨rfl, k, h, hbk, e⟩
        · exact absurd hbk hb
      · rintro (h | ⟨rfl, k, hk, hbk, e⟩)
        · exact h.elim
        · exact ⟨rfl, k, by omega, hbk, e⟩

/-- The pixels of the 1 bits of sprite rows that start at row `r`. -/
def RowsHit (x0 y0 r : Nat) (rows : List Byte) (px : Fin 64) (py : Fin 32) : Prop :=
  ∃ j c : Nat, j < rows.length ∧ c < 8 ∧ (rows.getD j 0).getLsbD (7 - c) = true ∧ px.val = (x0 + c) % 64 ∧
    py.val = (y0 + (r + j)) % 32

/-- The rows of a sprite of at most 32 rows. -/
theorem drawRows_flips (x0 y0 r : Nat) (rows : List Byte) (h : rows.length ≤ 32) (acc : FrameBuffer × Bool) :
    Flips (RowsHit x0 y0 r rows) acc (drawRows x0 y0 r rows acc) := by
  induction rows generalizing r acc with
  | nil => exact Flips.of_none (by simp [RowsHit]) acc
  | cons bits rest ih =>
    rw [List.length_cons] at h
    refine (drawBits_flips bits x0 (row (y0 + r)) 8 (Nat.le_refl 8) acc).trans (ih (r + 1) (by omega) _) ?_ ?_
    · rintro px py ⟨rfl, -⟩ ⟨j, c, hj, -, -, -, e⟩
      simp only [row] at e
      omega
    · intro px py
      constructor
      · rintro ⟨j, c, hj, hc, hb, ex, ey⟩
        cases j with
        | zero =>
          refine .inl ⟨Fin.ext ey, 7 - c, by omega, hb, ?_⟩
          rw [ex]; congr 2; omega
        | succ j =>
          exact .inr ⟨j, c, by simpa using hj, hc, by simpa using hb, ex, by rw [ey]; congr 1; omega⟩
      · rintro (⟨rfl, k, hk, hb, ex⟩ | ⟨j, c, hj, hc, hb, ex, ey⟩)
        · refine ⟨0, 7 - k, by simp, by omega, ?_, ex, rfl⟩
          rw [show 7 - (7 - k) = k by omega]; exact hb
        · exact ⟨j + 1, c, by simpa using hj, hc, by simpa using hb, ex, by rw [ey]; congr 1; omega⟩

/-- Everything drawing a sprite can do: the pixels of its 1 bits flip, and it collides when one of them held a 1. -/
theorem drawSprite_flips (fb : FrameBuffer) (x0 y0 : Nat) (rows : List Byte) (h : rows.length ≤ 32) :
    Flips (RowsHit x0 y0 0 rows) (fb, false) (drawSprite fb x0 y0 rows) := drawRows_flips x0 y0 0 rows h (fb, false)

end Sys2Proof.Machine
end

