-- ==== Sys2Proof/Laws/Ops.lean ====
section
/-! SUPPORT. For each shared operation, one lemma that says everything it can do. -/

namespace Sys2Proof.Machine

/-! ## How a step ends -/

theorem endStep_eq (r : StepResult) (s : State) : endStep r s = .next { s with lastResult := some r } := rfl

theorem executed_eq (s : State) : executed s = .next { s with lastResult := some (.outcome .executed) } := rfl

theorem awaiting_eq (s : State) : awaiting s = .next { s with lastResult := some (.outcome .awaitingKey) } := rfl

theorem invalidOpcode_eq (w : Word) (s : State) :
    invalidOpcode w s = .next { s with lastResult := some (.outcome (.invalidOpcode w)) } := rfl

/-- An error ends the step with the state it was raised in (60_exceptions.md R130, R133). -/
theorem raise_eq (e : Fault) (s : State) : raise e s = .next { s with lastResult := some (.error e) } := rfl

/-- A range check either raises with nothing changed, or goes on (40_step_cycle.md R86). -/
theorem checkRange_cases (first count : Nat) (s : State) (go : Host.Outcome State Fault Refusal) :
    (0 < count ∧ first + count > 0x1000 ∧ checkRange first count s go = raise (.addressOutOfRange 0x1000) s) ∨
      ((count = 0 ∨ first + count ≤ 0x1000) ∧ checkRange first count s go = go) := by
  unfold checkRange
  split
  · exact .inl ⟨by omega, by omega, rfl⟩
  · exact .inr ⟨by omega, rfl⟩

theorem checkRange_ok {first count : Nat} (s : State) (go : Host.Outcome State Fault Refusal)
    (h : first + count ≤ 0x1000) : checkRange first count s go = go := by
  unfold checkRange; rw [if_neg (by omega)]

theorem checkRange_error {first count : Nat} (s : State) (go : Host.Outcome State Fault Refusal) (h0 : 0 < count)
    (h : first + count > 0x1000) : checkRange first count s go = raise (.addressOutOfRange 0x1000) s := by
  unfold checkRange; rw [if_pos ⟨h0, by omega⟩]

/-! ## The return stack -/

/-- Everything a push can do (10_state.md R35). -/
theorem push_cases (s : State) (a : Word) :
    (s.sp.val = 16 ∧ push s a = .error .stackOverflow) ∨
      (∃ h : s.sp.val < 16,
        push s a = .ok { s with stack := s.stack.set s.sp.val a, sp := ⟨s.sp.val + 1, Nat.succ_lt_succ h⟩ }) := by
  have := s.sp.isLt
  unfold push
  split
  · rename_i h; exact .inr ⟨h, rfl⟩
  · exact .inl ⟨by omega, rfl⟩

/-- Everything a pop can do (10_state.md R35): the slot keeps its value. -/
theorem pop_cases (s : State) :
    (s.sp.val = 0 ∧ pop s = .error .stackUnderflow) ∨
      (∃ h : s.sp.val - 1 < 16,
        pop s = .ok (s.stack[s.sp.val - 1], { s with sp := ⟨s.sp.val - 1, Nat.lt_succ_of_lt h⟩ }) ∧ 0 < s.sp.val) := by
  have := s.sp.isLt
  unfold pop
  split
  · rename_i h; exact .inr ⟨by omega, rfl, h⟩
  · exact .inl ⟨by omega, rfl⟩

/-! ## Fetch and the key-wait poll -/

/-- A bounds-checked read (00_scope.md R12). -/
theorem memRead_ok (s : State) {a : Nat} (h : a ≤ 0xFFF) : memRead s a = .ok (s.readByte a) := if_pos h

theorem memRead_error (s : State) {a : Nat} (h : 0xFFF < a) : memRead s a = .error (.addressOutOfRange a) :=
  if_neg (by omega)

/-- Everything a fetch can do (40_step_cycle.md R81). -/
theorem fetch_cases (s : State) :
    (s.pc.toNat < 0xFFF ∧ fetch s = .ok (wordOfBytes (s.readByte s.pc.toNat) (s.readByte (s.pc.toNat + 1)))) ∨
      (s.pc.toNat = 0xFFF ∧ fetch s = .error (.addressOutOfRange 0x1000)) ∨
      (0xFFF < s.pc.toNat ∧ fetch s = .error (.addressOutOfRange s.pc.toNat)) := by
  unfold fetch
  rcases Nat.lt_trichotomy s.pc.toNat 0xFFF with h | h | h
  · rw [memRead_ok s (by omega), memRead_ok s (by omega)]; exact .inl ⟨h, rfl⟩
  · rw [memRead_ok s (by omega), memRead_error s (by omega), h]; exact .inr (.inl ⟨rfl, rfl⟩)
  · rw [memRead_error s h]; exact .inr (.inr ⟨h, rfl⟩)

theorem mem_keysInOrder (o : Config.KeyOrder) (k : Reg) : k ∈ keysInOrder o := by
  cases o <;> revert k <;> decide

/-- The order in which a poll tries the keys. -/
theorem keysInOrder_pairwise (o : Config.KeyOrder) :
    (keysInOrder o).Pairwise fun j k => (o = .lowest → j < k) ∧ (o = .highest → k < j) := by cases o <;> decide

/-- A level-sensitive poll counts the pressed keys (R80). -/
theorem State.countsKey_level {s : State} (h : s.params.keyWaitSelect.sense = .level) (k : Reg) :
    s.countsKey k = s.key k := by unfold State.countsKey; rw [h]

/-- An edge-sensitive poll counts the pressed keys the wait has not seen pressed (log 30). -/
theorem State.countsKey_edge {s : State} (h : s.params.keyWaitSelect.sense = .edge) (k : Reg) :
    s.countsKey k = (s.key k && !s.seenKeys[k.val]) := by unfold State.countsKey; rw [h]

/-- The first element of an ordered list that passes. -/
theorem find?_eq_some_of_pairwise {R : Reg → Reg → Prop} {p : Reg → Bool} {k : Reg} (l : List Reg) (hl : l.Pairwise R)
    (hm : k ∈ l) (hk : p k = true) (hb : ∀ j, R j k → p j = false) : l.find? p = some k := by
  induction l with
  | nil => cases hm
  | cons a l ih =>
    rw [List.pairwise_cons] at hl
    by_cases h : a = k
    · subst h; rw [List.find?_cons_of_pos hk]
    · have hm' : k ∈ l := (List.mem_cons.1 hm).resolve_left (Ne.symm h)
      rw [List.find?_cons_of_neg (by rw [hb a (hl.1 k hm')]; exact Bool.false_ne_true), ih hl.2 hm']

/-- The poll takes the first key that counts, in the order of `KEY_WAIT_SELECT` (R80). -/
theorem selectKey_some {s : State} {k : Reg} (hk : s.countsKey k = true)
    (hlo : s.params.keyWaitSelect.order = .lowest → ∀ j, j < k → s.countsKey j = false)
    (hhi : s.params.keyWaitSelect.order = .highest → ∀ j, k < j → s.countsKey j = false) : selectKey s = some k := by
  refine find?_eq_some_of_pairwise _ (keysInOrder_pairwise _) (mem_keysInOrder _ k) hk fun j hj => ?_
  cases ho : s.params.keyWaitSelect.order with
  | lowest => exact hlo ho j (hj.1 ho)
  | highest => exact hhi ho j (hj.2 ho)

/-- The poll takes none when no key counts (R80). -/
theorem selectKey_none {s : State} (h : ∀ k, s.countsKey k = false) : selectKey s = none := by
  rw [selectKey, List.find?_eq_none]; intro k _; simp [h k]

/-- Everything a poll can do (R80). -/
theorem keywaitPoll_cases (x : Reg) (s : State) :
    (∃ k, selectKey s = some k ∧
        keywaitPoll x s = executed { s.writeV x (BitVec.ofNat 8 k.val) with aw := none }) ∨
      (selectKey s = none ∧ keywaitPoll x s = awaiting s.lookAtKeys) := by
  unfold keywaitPoll
  cases h : selectKey s with
  | none => exact .inr ⟨rfl, rfl⟩
  | some k => exact .inl ⟨k, rfl, rfl⟩

/-! ## The step -/

/-- Everything a step can do (40_step_cycle.md R79). -/
theorem step_cases (s : State) :
    (∃ x, s.aw = some x ∧ step s = keywaitPoll x s) ∨
      (∃ e, s.aw = none ∧ fetch s = .error e ∧ step s = raise e s) ∨
      (∃ w, s.aw = none ∧ fetch s = .ok w ∧ decode w = none ∧ step s = invalidOpcode w s.addTwo) ∨
      (∃ w i, s.aw = none ∧ fetch s = .ok w ∧ decode w = some i ∧ step s = exec i s.addTwo) := by
  unfold step stepCycle
  cases ha : s.aw with
  | some x => exact .inl ⟨x, rfl, rfl⟩
  | none =>
    cases hf : fetch s with
    | error e => exact .inr (.inl ⟨e, rfl, rfl, rfl⟩)
    | ok w =>
      cases hd : decode w with
      | none => exact .inr (.inr (.inl ⟨w, rfl, rfl, hd, by simp [hd]⟩))
      | some i => exact .inr (.inr (.inr ⟨w, i, rfl, rfl, hd, by simp [hd]⟩))

/-! ## Load -/

/-- The offset of a load (70_reset_and_hazards.md R153). -/
theorem loadOffset_eq (offset : Option Nat) : loadOffset offset = offset.getD 0x200 := rfl

/-- Everything a load can do (R153, R154). -/
theorem hostLoad_cases (bytes : List Byte) (offset : Nat) (s : State) :
    (offset > 0xFFF ∧ hostLoad bytes offset s = .error (.addressOutOfRange offset)) ∨
      (offset ≤ 0xFFF ∧ offset + bytes.length > 4096 ∧ hostLoad bytes offset s = .error .programTooLarge) ∨
      (offset ≤ 0xFFF ∧ offset + bytes.length ≤ 4096 ∧
        hostLoad bytes offset s = .ok { (hostInit s).writeBytes offset bytes with pc := BitVec.ofNat 16 offset }) := by
  unfold hostLoad
  split
  · exact .inl ⟨by assumption, rfl⟩
  · split
    · exact .inr (.inl ⟨by omega, by assumption, rfl⟩)
    · exact .inr (.inr ⟨by omega, Nat.le_of_not_gt (by assumption), rfl⟩)

end Sys2Proof.Machine
end

