-- ==== Sys2Proof/Laws/Frame.lean ====
section
/-! SUPPORT. How to show a frame: from equal fields to `KeepsAllBut`, with its small laws. -/

namespace Sys2Proof.Safety

open Sys2Proof.Machine

/-- Fields that are equal read alike. -/
theorem KeepsAllBut.of_fields {changed : List Part} {s t : State} (params : t.params = s.params)
    (v : .v ∉ changed → t.v = s.v) (i : .i ∉ changed → t.i = s.i) (pc : .pc ∉ changed → t.pc = s.pc)
    (stack : .stack ∉ changed → t.stack = s.stack) (sp : .sp ∉ changed → t.sp = s.sp)
    (dt : .dt ∉ changed → t.dt = s.dt) (st : .st ∉ changed → t.st = s.st) (fb : .fb ∉ changed → t.fb = s.fb)
    (keys : .keys ∉ changed → t.keys = s.keys) (aw : .aw ∉ changed → t.aw = s.aw)
    (seenKeys : .seenKeys ∉ changed → t.seenKeys = s.seenKeys)
    (mem : .mem ∉ changed → t.mem = s.mem) (draws : .draws ∉ changed → t.draws = s.draws) :
    KeepsAllBut changed s t where
  params := params
  v h := State.readV_congr (v h)
  i := i
  pc := pc
  stack h j := by rw [stack h]
  sp := sp
  dt := dt
  st := st
  fb h x y := by rw [fb h]
  keys h k := by simp only [State.key, keys h]
  aw := aw
  seenKeys := seenKeys
  mem h := State.readByte_congr params (mem h)
  draws := draws

/-- A frame with fewer changes is a frame with more. -/
theorem KeepsAllBut.mono {few more : List Part} {s t : State} (h : KeepsAllBut few s t) (hs : few ⊆ more) :
    KeepsAllBut more s t where
  params := h.params
  v hn := h.v fun hm => hn (hs hm)
  i hn := h.i fun hm => hn (hs hm)
  pc hn := h.pc fun hm => hn (hs hm)
  stack hn := h.stack fun hm => hn (hs hm)
  sp hn := h.sp fun hm => hn (hs hm)
  dt hn := h.dt fun hm => hn (hs hm)
  st hn := h.st fun hm => hn (hs hm)
  fb hn := h.fb fun hm => hn (hs hm)
  keys hn := h.keys fun hm => hn (hs hm)
  aw hn := h.aw fun hm => hn (hs hm)
  seenKeys hn := h.seenKeys fun hm => hn (hs hm)
  mem hn := h.mem fun hm => hn (hs hm)
  draws hn := h.draws fun hm => hn (hs hm)

end Sys2Proof.Safety
end

