-- ==== Sys2Proof/Laws/Observe.lean ====
section
/-! SUPPORT. Observations of a run under a sequence of host operations (60_exceptions.md R148, R149). -/

namespace Sys2Proof.Safety

open Sys2Proof.Machine

@[simp] theorem observe_nil (s : State) : observe [] s = (.budget, s) := rfl

/-- An operation that does not end the observation hands it on. -/
theorem observe_cons_go {op : HostOp} {ops : List HostOp} {s t : State} {r : HostReply}
    (h : hostOp op s = .next (t, r)) (he : opEnd op s t = none) : observe (op :: ops) s = observe ops t := by
  simp only [observe, h, he]

/-- An operation that ends the observation says why. -/
theorem observe_cons_end {op : HostOp} {ops : List HostOp} {s t : State} {r : HostReply} {e : RunEnd}
    (h : hostOp op s = .next (t, r)) (he : opEnd op s t = some e) : observe (op :: ops) s = (e, t) := by
  simp only [observe, h, he]

/-- Only a step ends an observation. -/
theorem opEnd_eq_none {op : HostOp} (h : op ≠ .step) (s t : State) : opEnd op s t = none := by
  cases op <;> first | rfl | exact absurd rfl h

/-- What counts in a wait is what the poll counts (40_step_cycle.md R80). -/
theorem keyCounts_iff (s : State) (k : Reg) : KeyCounts s k ↔ s.countsKey k = true := by
  unfold KeyCounts State.countsKey; cases s.params.keyWaitSelect.sense <;> simp

end Sys2Proof.Safety
end

