-- ==== Sys2Proof/WellFormed.lean ====
section
/-! DEFINITION. When an instruction's operands fit the fields of its format (30_encoding.md R65, R71). The types of
the operands already bound them (10_state.md R24 asks for it), so every term of Instr passes; the check itself
(`fieldFits`) refuses a value its field cannot hold. -/

namespace Sys2Proof

/-- Does `value` fit a field of `width` bits (30_encoding.md R65)? -/
def fieldFits (width value : Nat) : Bool := decide (value < 2 ^ width)

/-- The fields of an instruction's format, each as its width in bits and its value (30_encoding.md R65, R71). -/
def Instr.fields : Instr → List (Nat × Nat)
  | .cls | .ret => []
  | .jpAddr nnn | .callAddr nnn | .ldIAddr nnn | .jpV0Addr nnn => [(12, nnn.toNat)]
  | .seVxByte x kk | .sneVxByte x kk | .ldVxByte x kk | .addVxByte x kk | .rndVxByte x kk =>
    [(4, x.val), (8, kk.toNat)]
  | .seVxVy x y | .sneVxVy x y | .ldVxVy x y | .orVxVy x y | .andVxVy x y | .xorVxVy x y | .addVxVy x y
  | .subVxVy x y | .shrVxVy x y | .subnVxVy x y | .shlVxVy x y => [(4, x.val), (4, y.val)]
  | .drwVxVyNibble x y n => [(4, x.val), (4, y.val), (4, n.toNat)]
  | .skpVx x | .sknpVx x | .ldVxDT x | .ldVxK x | .ldDTVx x | .ldSTVx x | .addIVx x | .ldFVx x | .ldBVx x
  | .ldMemVx x | .ldVxMem x => [(4, x.val)]

/-- Every operand fits its field. -/
def Instr.WellFormed (i : Instr) : Bool := i.fields.all fun f => fieldFits f.1 f.2

end Sys2Proof
end

