-- ==== Sys2Proof/Laws/PerInstr.lean ====
section
/-! SUPPORT. Per-instruction facts about the instructions as syntax: the family Shape of LAWS.json. -/

namespace Sys2Proof.Laws.Shape

/-- Every operand fits its field (30_encoding.md R65), and the instruction is exactly two bytes (R64). -/
def Statement (i : Instr) : Prop := i.WellFormed = true ∧ (encodeBytes i).length = 2

/-- A nibble fits its field. -/
theorem fits_nibble (n : BitVec 4) : fieldFits 4 n.toNat = true := decide_eq_true n.isLt

/-- A register index fits its field. -/
theorem fits_reg (x : Reg) : fieldFits 4 x.val = true := decide_eq_true x.isLt

/-- An immediate fits its field. -/
theorem fits_byte (kk : Byte) : fieldFits 8 kk.toNat = true := decide_eq_true kk.isLt

/-- An address fits its field. -/
theorem fits_addr (nnn : BitVec 12) : fieldFits 12 nnn.toNat = true := decide_eq_true nnn.isLt

theorem cls : Statement .cls :=
  ⟨by simp [Instr.WellFormed, Instr.fields], rfl⟩

theorem ret : Statement .ret :=
  ⟨by simp [Instr.WellFormed, Instr.fields], rfl⟩

theorem jpAddr (nnn : BitVec 12) : Statement (.jpAddr nnn) :=
  ⟨by simp [Instr.WellFormed, Instr.fields, fits_addr nnn], rfl⟩

theorem callAddr (nnn : BitVec 12) : Statement (.callAddr nnn) :=
  ⟨by simp [Instr.WellFormed, Instr.fields, fits_addr nnn], rfl⟩

theorem seVxByte (x : Reg) (kk : Byte) : Statement (.seVxByte x kk) :=
  ⟨by simp [Instr.WellFormed, Instr.fields, fits_reg x, fits_byte kk], rfl⟩

theorem sneVxByte (x : Reg) (kk : Byte) : Statement (.sneVxByte x kk) :=
  ⟨by simp [Instr.WellFormed, Instr.fields, fits_reg x, fits_byte kk], rfl⟩

theorem seVxVy (x : Reg) (y : Reg) : Statement (.seVxVy x y) :=
  ⟨by simp [Instr.WellFormed, Instr.fields, fits_reg x, fits_reg y], rfl⟩

theorem ldVxByte (x : Reg) (kk : Byte) : Statement (.ldVxByte x kk) :=
  ⟨by simp [Instr.WellFormed, Instr.fields, fits_reg x, fits_byte kk], rfl⟩

theorem addVxByte (x : Reg) (kk : Byte) : Statement (.addVxByte x kk) :=
  ⟨by simp [Instr.WellFormed, Instr.fields, fits_reg x, fits_byte kk], rfl⟩

theorem ldVxVy (x : Reg) (y : Reg) : Statement (.ldVxVy x y) :=
  ⟨by simp [Instr.WellFormed, Instr.fields, fits_reg x, fits_reg y], rfl⟩

theorem orVxVy (x : Reg) (y : Reg) : Statement (.orVxVy x y) :=
  ⟨by simp [Instr.WellFormed, Instr.fields, fits_reg x, fits_reg y], rfl⟩

theorem andVxVy (x : Reg) (y : Reg) : Statement (.andVxVy x y) :=
  ⟨by simp [Instr.WellFormed, Instr.fields, fits_reg x, fits_reg y], rfl⟩

theorem xorVxVy (x : Reg) (y : Reg) : Statement (.xorVxVy x y) :=
  ⟨by simp [Instr.WellFormed, Instr.fields, fits_reg x, fits_reg y], rfl⟩

theorem addVxVy (x : Reg) (y : Reg) : Statement (.addVxVy x y) :=
  ⟨by simp [Instr.WellFormed, Instr.fields, fits_reg x, fits_reg y], rfl⟩

theorem subVxVy (x : Reg) (y : Reg) : Statement (.subVxVy x y) :=
  ⟨by simp [Instr.WellFormed, Instr.fields, fits_reg x, fits_reg y], rfl⟩

theorem shrVxVy (x : Reg) (y : Reg) : Statement (.shrVxVy x y) :=
  ⟨by simp [Instr.WellFormed, Instr.fields, fits_reg x, fits_reg y], rfl⟩

theorem subnVxVy (x : Reg) (y : Reg) : Statement (.subnVxVy x y) :=
  ⟨by simp [Instr.WellFormed, Instr.fields, fits_reg x, fits_reg y], rfl⟩

theorem shlVxVy (x : Reg) (y : Reg) : Statement (.shlVxVy x y) :=
  ⟨by simp [Instr.WellFormed, Instr.fields, fits_reg x, fits_reg y], rfl⟩

theorem sneVxVy (x : Reg) (y : Reg) : Statement (.sneVxVy x y) :=
  ⟨by simp [Instr.WellFormed, Instr.fields, fits_reg x, fits_reg y], rfl⟩

theorem ldIAddr (nnn : BitVec 12) : Statement (.ldIAddr nnn) :=
  ⟨by simp [Instr.WellFormed, Instr.fields, fits_addr nnn], rfl⟩

theorem jpV0Addr (nnn : BitVec 12) : Statement (.jpV0Addr nnn) :=
  ⟨by simp [Instr.WellFormed, Instr.fields, fits_addr nnn], rfl⟩

theorem rndVxByte (x : Reg) (kk : Byte) : Statement (.rndVxByte x kk) :=
  ⟨by simp [Instr.WellFormed, Instr.fields, fits_reg x, fits_byte kk], rfl⟩

theorem drwVxVyNibble (x : Reg) (y : Reg) (n : BitVec 4) : Statement (.drwVxVyNibble x y n) :=
  ⟨by simp [Instr.WellFormed, Instr.fields, fits_reg x, fits_reg y, fits_nibble n], rfl⟩

theorem skpVx (x : Reg) : Statement (.skpVx x) :=
  ⟨by simp [Instr.WellFormed, Instr.fields, fits_reg x], rfl⟩

theorem sknpVx (x : Reg) : Statement (.sknpVx x) :=
  ⟨by simp [Instr.WellFormed, Instr.fields, fits_reg x], rfl⟩

theorem ldVxDT (x : Reg) : Statement (.ldVxDT x) :=
  ⟨by simp [Instr.WellFormed, Instr.fields, fits_reg x], rfl⟩

theorem ldVxK (x : Reg) : Statement (.ldVxK x) :=
  ⟨by simp [Instr.WellFormed, Instr.fields, fits_reg x], rfl⟩

theorem ldDTVx (x : Reg) : Statement (.ldDTVx x) :=
  ⟨by simp [Instr.WellFormed, Instr.fields, fits_reg x], rfl⟩

theorem ldSTVx (x : Reg) : Statement (.ldSTVx x) :=
  ⟨by simp [Instr.WellFormed, Instr.fields, fits_reg x], rfl⟩

theorem addIVx (x : Reg) : Statement (.addIVx x) :=
  ⟨by simp [Instr.WellFormed, Instr.fields, fits_reg x], rfl⟩

theorem ldFVx (x : Reg) : Statement (.ldFVx x) :=
  ⟨by simp [Instr.WellFormed, Instr.fields, fits_reg x], rfl⟩

theorem ldBVx (x : Reg) : Statement (.ldBVx x) :=
  ⟨by simp [Instr.WellFormed, Instr.fields, fits_reg x], rfl⟩

theorem ldMemVx (x : Reg) : Statement (.ldMemVx x) :=
  ⟨by simp [Instr.WellFormed, Instr.fields, fits_reg x], rfl⟩

theorem ldVxMem (x : Reg) : Statement (.ldVxMem x) :=
  ⟨by simp [Instr.WellFormed, Instr.fields, fits_reg x], rfl⟩

end Sys2Proof.Laws.Shape
end

