-- ==== Sys2Proof/Tests/Slice0.lean ====
section
/-! SUPPORT. Tests of the model's own work: the check of well-formedness, one word per instruction, one or two steps per
instruction, and a witness for every statement with hypotheses. Every expected result is taken from the table or the
vector its comment names (95_test_vectors.md unless another file is named). -/

namespace Sys2Proof.Tests

open Sys2Proof.Machine Sys2Proof.Safety

/-! ## Well-formedness (30_encoding.md R65): the check refuses a value its field cannot hold -/

theorem test_wellFormed_refuses_a_17th_register : fieldFits 4 16 = false := by decide
theorem test_wellFormed_refuses_a_ninth_immediate_bit : fieldFits 8 256 = false := by decide
theorem test_wellFormed_refuses_a_13th_address_bit : fieldFits 12 4096 = false := by decide
theorem test_wellFormed_accepts_the_greatest_operands :
    (Instr.drwVxVyNibble 15 15 15).WellFormed = true ∧ (Instr.jpAddr 0xFFF).WellFormed = true ∧
      (Instr.ldVxByte 15 0xFF).WellFormed = true := by decide

/-! ## Decoding: the bits of each row of opcode_table.json, written out (30_encoding.md section 3) -/

theorem test_decode_cls : decode 0b0000000011100000 = some .cls := by decide
theorem test_decode_ret : decode 0b0000000011101110 = some .ret := by decide
theorem test_decode_jpAddr : decode 0b0001_001000101000 = some (.jpAddr 0x228) := by decide
theorem test_decode_callAddr : decode 0b0010_001000010000 = some (.callAddr 0x210) := by decide
theorem test_decode_seVxByte : decode 0b0011_0011_00010000 = some (.seVxByte 3 0x10) := by decide
theorem test_decode_sneVxByte : decode 0b0100_0011_00010000 = some (.sneVxByte 3 0x10) := by decide
theorem test_decode_seVxVy : decode 0b0101_0001_0010_0000 = some (.seVxVy 1 2) := by decide
theorem test_decode_ldVxByte : decode 0b0110_0000_00000101 = some (.ldVxByte 0 5) := by decide
theorem test_decode_addVxByte : decode 0b0111_0000_00000011 = some (.addVxByte 0 3) := by decide
theorem test_decode_ldVxVy : decode 0b1000_0000_0001_0000 = some (.ldVxVy 0 1) := by decide
theorem test_decode_orVxVy : decode 0b1000_0000_0001_0001 = some (.orVxVy 0 1) := by decide
theorem test_decode_andVxVy : decode 0b1000_0000_0001_0010 = some (.andVxVy 0 1) := by decide
theorem test_decode_xorVxVy : decode 0b1000_0000_0001_0011 = some (.xorVxVy 0 1) := by decide
theorem test_decode_addVxVy : decode 0b1000_0000_0001_0100 = some (.addVxVy 0 1) := by decide
theorem test_decode_subVxVy : decode 0b1000_0000_0001_0101 = some (.subVxVy 0 1) := by decide
theorem test_decode_shrVxVy : decode 0b1000_0000_0001_0110 = some (.shrVxVy 0 1) := by decide
theorem test_decode_subnVxVy : decode 0b1000_0000_0001_0111 = some (.subnVxVy 0 1) := by decide
theorem test_decode_shlVxVy : decode 0b1000_0000_0001_1110 = some (.shlVxVy 0 1) := by decide
theorem test_decode_sneVxVy : decode 0b1001_0001_0010_0000 = some (.sneVxVy 1 2) := by decide
theorem test_decode_ldIAddr : decode 0b1010_001100000000 = some (.ldIAddr 0x300) := by decide
theorem test_decode_jpV0Addr : decode 0b1011_001100000000 = some (.jpV0Addr 0x300) := by decide
theorem test_decode_rndVxByte : decode 0b1100_0011_00001111 = some (.rndVxByte 3 0x0F) := by decide
theorem test_decode_drwVxVyNibble : decode 0b1101_0000_0001_0101 = some (.drwVxVyNibble 0 1 5) := by decide
theorem test_decode_skpVx : decode 0b1110_0001_10011110 = some (.skpVx 1) := by decide
theorem test_decode_sknpVx : decode 0b1110_0001_10100001 = some (.sknpVx 1) := by decide
theorem test_decode_ldVxDT : decode 0b1111_0011_00000111 = some (.ldVxDT 3) := by decide
theorem test_decode_ldVxK : decode 0b1111_0011_00001010 = some (.ldVxK 3) := by decide
theorem test_decode_ldDTVx : decode 0b1111_0000_00010101 = some (.ldDTVx 0) := by decide
theorem test_decode_ldSTVx : decode 0b1111_0000_00011000 = some (.ldSTVx 0) := by decide
theorem test_decode_addIVx : decode 0b1111_0000_00011110 = some (.addIVx 0) := by decide
theorem test_decode_ldFVx : decode 0b1111_0010_00101001 = some (.ldFVx 2) := by decide
theorem test_decode_ldBVx : decode 0b1111_0000_00110011 = some (.ldBVx 0) := by decide
theorem test_decode_ldMemVx : decode 0b1111_0010_01010101 = some (.ldMemVx 2) := by decide
theorem test_decode_ldVxMem : decode 0b1111_0010_01100101 = some (.ldVxMem 2) := by decide

/-- STP-5 to STP-12, CF-25, CF-28: words that match no row. -/
theorem test_decode_refuses_the_invalid_words :
    [0x0123, 0x00E1, 0x8018, 0x800F, 0xE09F, 0xF000, 0xFF75, 0xFFFF, 0x5121, 0x9AB3].all
      (fun w => (decode w).isNone) = true := by decide

/-- 20_memory.md R53: the byte at the lower address is the high byte. -/
theorem test_decodeBytes_is_big_endian :
    decodeBytes [0x60, 0x05, 0x70, 0x03] = .instr (.ldVxByte 0 5) [0x70, 0x03] := by decide

theorem test_decodeBytes_needs_two_bytes : decodeBytes [0x60] = .truncated := by decide

/-! ## Helpers -/

/-- The reset state with a word at 0x200, to be fetched next. -/
def start (w : Nat) : State := ({ State.reset with pc := 0x200 } : State).withFetchWord 16 w

/-- Set several registers. -/
def setV (s : State) (l : List (Reg × Byte)) : State := l.foldl (fun t r => t.writeV r.1 r.2) s

/-- The outcome is a next state with the property. -/
def gives (o : Host.Outcome State Fault Refusal) (p : State → Bool) : Bool :=
  match o with
  | .next t => p t
  | .fault _ => false
  | .refused _ => false

/-- The step completed. -/
def done (t : State) : Bool := decide (t.lastResult = some (.outcome .executed))

/-- How many pixels are 1. -/
def lit (fb : FrameBuffer) : Nat := (fb.toList.map fun c => c.toList.countP id).sum

/-! ## The step -/

/-- STP-13: the first step from reset with nothing placed reads the font bytes F0 90. -/
theorem test_step_from_reset :
    gives (step State.reset) (fun t => t.lastResult = some (.outcome (.invalidOpcode 0xF090)) && t.pc = 0x002) = true := by
  decide

/-- STP-1. -/
theorem test_step_fetch_error :
    gives (step { State.reset with pc := 0xFFF })
      (fun t => t.lastResult = some (.error (.addressOutOfRange 0x1000)) && t.pc = 0xFFF) = true := by decide

/-- STP-2. -/
theorem test_step_advance_wraps :
    gives (step (({ State.reset with pc := 0xFFE } : State).writeBytes 0xFFE [0x60, 0x01]))
      (fun t => done t && t.pc = 0x000 && t.readV 0 = 0x01) = true := by decide

/-- STP-3. -/
theorem test_step_odd_pc :
    gives (step (({ State.reset with pc := 0x201 } : State).writeBytes 0x201 [0x61, 0x07]))
      (fun t => done t && t.pc = 0x203 && t.readV 1 = 0x07) = true := by decide

/-- The host's probe: the placed word is the one that is run, and where PC leaves no room it is placed at 0x200. -/
theorem test_withFetchWord :
    gives (step (State.reset.withFetchWord 16 0x6005)) (fun t => done t && t.pc = 0x002 && t.readV 0 = 0x05) = true ∧
      gives (step (({ State.reset with pc := 0xFFF, aw := some 3 } : State).withFetchWord 16 0x6005))
        (fun t => done t && t.pc = 0x202 && t.readV 0 = 0x05) = true := by decide

/-! ## Control flow -/

/-- CF-1. -/
theorem test_ret_underflow :
    gives (step (start 0x00EE)) (fun t => t.lastResult = some (.error .stackUnderflow) && t.pc = 0x202) = true := by decide

/-- CF-2. -/
theorem test_ret_pops :
    gives (step { start 0x00EE with sp := 2, stack := (State.reset.stack.set 0 0x204).set 1 0x30A })
      (fun t => done t && t.pc = 0x30A && t.sp = 1 && t.stack[1] = 0x30A) = true := by decide

/-- CF-3, CF-6. -/
theorem test_jp :
    gives (step (start 0x1228)) (fun t => done t && t.pc = 0x228) = true ∧
      gives (step (start 0x1333)) (fun t => done t && t.pc = 0x333) = true := by decide

/-- CF-7. -/
theorem test_call_pushes :
    gives (step (start 0x2210)) (fun t => done t && t.pc = 0x210 && t.sp = 1 && t.stack[0] = 0x202) = true := by decide

/-- CF-9. -/
theorem test_call_overflow :
    gives (step { start 0x2400 with sp := 16, stack := State.reset.stack.set 15 0x0AB })
      (fun t => t.lastResult = some (.error .stackOverflow) && t.pc = 0x202 && t.sp = 16 && t.stack[15] = 0x0AB) = true := by
  decide

/-- CF-12, CF-13. -/
theorem test_jpV0 :
    gives (step (setV (start 0xBFFF) [(0, 0xFF)])) (fun t => done t && t.pc = 0x0FE) = true ∧
      gives (step (setV (start 0xB210) [(0, 0x01), (2, 0x10)])) (fun t => t.pc = 0x211) = true := by decide

/-- CF-14. -/
theorem test_jpV0_adds_vx :
    gives (step (setV { start 0xB210 with params := { Config.Params.default with jumpOffsetReg := .vx } }
      [(0, 0x01), (2, 0x10)])) (fun t => done t && t.pc = 0x220) = true := by decide

/-- CF-15, CF-16. -/
theorem test_seVxByte :
    gives (step (setV (start 0x3310) [(3, 0x10)])) (fun t => done t && t.pc = 0x204) = true ∧
      gives (step (setV (start 0x3310) [(3, 0x11)])) (fun t => done t && t.pc = 0x202) = true := by decide

/-- CF-18. -/
theorem test_seVxByte_wraps :
    gives (step (({ State.reset with pc := 0xFFE } : State).writeBytes 0xFFE [0x30, 0x00]))
      (fun t => done t && t.pc = 0x002) = true := by decide

/-- CF-20, CF-21. -/
theorem test_sneVxByte :
    gives (step (setV (start 0x4310) [(3, 0x11)])) (fun t => done t && t.pc = 0x204) = true ∧
      gives (step (setV (start 0x4310) [(3, 0x10)])) (fun t => done t && t.pc = 0x202) = true := by decide

/-- CF-22, CF-23. -/
theorem test_seVxVy :
    gives (step (setV (start 0x5120) [(1, 0x7F), (2, 0x7F)])) (fun t => done t && t.pc = 0x204) = true ∧
      gives (step (setV (start 0x5120) [(1, 0x01), (2, 0x02)])) (fun t => done t && t.pc = 0x202) = true := by decide

/-- CF-26, CF-27. -/
theorem test_sneVxVy :
    gives (step (setV (start 0x9120) [(1, 0x01), (2, 0x02)])) (fun t => done t && t.pc = 0x204) = true ∧
      gives (step (start 0x9550)) (fun t => done t && t.pc = 0x202) = true := by decide

/-! ## Register load, ALU group, random -/

/-- ALU-1. -/
theorem test_ldVxByte : gives (step (start 0x6F42)) (fun t => done t && t.readV Reg.vf = 0x42) = true := by decide

/-- ALU-2, ALU-3. -/
theorem test_addVxByte :
    gives (step (setV (start 0x7001) [(0, 0xFF), (15, 0x55)]))
        (fun t => done t && t.readV 0 = 0x00 && t.readV Reg.vf = 0x55) = true ∧
      gives (step (setV (start 0x7F01) [(15, 0xFF)])) (fun t => t.readV Reg.vf = 0x00) = true := by decide

/-- ALU-4, ALU-5. -/
theorem test_ldVxVy :
    gives (step (setV (start 0x8010) [(1, 0x33)])) (fun t => done t && t.readV 0 = 0x33) = true ∧
      gives (step (setV (start 0x8F00) [(0, 0x07)])) (fun t => t.readV Reg.vf = 0x07) = true := by decide

/-- ALU-6. -/
theorem test_orVxVy :
    gives (step (setV (start 0x8011) [(0, 0x0F), (1, 0xF0), (15, 0x55)]))
      (fun t => done t && t.readV 0 = 0xFF && t.readV Reg.vf = 0x55) = true := by decide

/-- ALU-7. -/
theorem test_orVxVy_resets_vf :
    gives (step (setV { start 0x8011 with params := { Config.Params.default with logicVfReset := true } }
      [(0, 0x0F), (1, 0xF0), (15, 0x55)])) (fun t => done t && t.readV 0 = 0xFF && t.readV Reg.vf = 0x00) = true := by decide

/-- ALU-8. -/
theorem test_andVxVy :
    gives (step (setV (start 0x8012) [(0, 0x3C), (1, 0x0F)])) (fun t => done t && t.readV 0 = 0x0C) = true := by decide

/-- ALU-9, ALU-10. -/
theorem test_xorVxVy :
    gives (step (setV (start 0x8013) [(0, 0xFF), (1, 0x0F)])) (fun t => done t && t.readV 0 = 0xF0) = true ∧
      gives (step (setV (start 0x8443) [(4, 0x5A)])) (fun t => t.readV 4 = 0x00) = true := by decide

/-- ALU-11, ALU-13. -/
theorem test_addVxVy :
    gives (step (setV (start 0x8014) [(0, 0xF0), (1, 0x20)]))
        (fun t => done t && t.readV 0 = 0x10 && t.readV Reg.vf = 0x01) = true ∧
      gives (step (setV (start 0x8014) [(0, 0x7F), (1, 0x80), (15, 0x01)]))
        (fun t => t.readV 0 = 0xFF && t.readV Reg.vf = 0x00) = true := by decide

/-- ALU-15, ALU-16: VF as a destination and as a source. -/
theorem test_addVxVy_with_vf :
    gives (step (setV (start 0x8F14) [(15, 0x80), (1, 0x80)])) (fun t => done t && t.readV Reg.vf = 0x01) = true ∧
      gives (step (setV (start 0x80F4) [(0, 0x01), (15, 0xFF)]))
        (fun t => t.readV 0 = 0x00 && t.readV Reg.vf = 0x01) = true := by decide

/-- ALU-17, ALU-18. -/
theorem test_subVxVy :
    gives (step (setV (start 0x8015) [(0, 0x10), (1, 0x20)]))
        (fun t => done t && t.readV 0 = 0xF0 && t.readV Reg.vf = 0x00) = true ∧
      gives (step (setV (start 0x8015) [(0, 0x20), (1, 0x20)]))
        (fun t => t.readV 0 = 0x00 && t.readV Reg.vf = 0x01) = true := by decide

/-- ALU-24, ALU-26. -/
theorem test_shrVxVy :
    gives (step (setV (start 0x8016) [(0, 0xFF), (1, 0x04)]))
        (fun t => done t && t.readV 0 = 0x7F && t.readV Reg.vf = 0x01) = true ∧
      gives (step (setV (start 0x8F06) [(15, 0x02)])) (fun t => t.readV Reg.vf = 0x00) = true := by decide

/-- ALU-25. -/
theorem test_shrVxVy_of_vy :
    gives (step (setV { start 0x8016 with params := { Config.Params.default with shiftSource := .vy } }
      [(0, 0xFF), (1, 0x04)])) (fun t => done t && t.readV 0 = 0x02 && t.readV Reg.vf = 0x00) = true := by decide

/-- ALU-27, ALU-28. -/
theorem test_subnVxVy :
    gives (step (setV (start 0x8017) [(0, 0x10), (1, 0x30)]))
        (fun t => done t && t.readV 0 = 0x20 && t.readV Reg.vf = 0x01) = true ∧
      gives (step (setV (start 0x8017) [(0, 0x01), (1, 0x00)]))
        (fun t => t.readV 0 = 0xFF && t.readV Reg.vf = 0x00) = true := by decide

/-- ALU-30, ALU-31. -/
theorem test_shlVxVy :
    gives (step (setV (start 0x800E) [(0, 0x81)]))
        (fun t => done t && t.readV 0 = 0x02 && t.readV Reg.vf = 0x01) = true ∧
      gives (step (setV (start 0x800E) [(0, 0x7F)])) (fun t => t.readV 0 = 0xFE && t.readV Reg.vf = 0x00) = true := by decide

/-- ALU-33. -/
theorem test_shlVxVy_of_vy :
    gives (step (setV { start 0x801E with params := { Config.Params.default with shiftSource := .vy } }
      [(0, 0x01), (1, 0x80)])) (fun t => done t && t.readV 0 = 0x00 && t.readV Reg.vf = 0x01) = true := by decide

/-- ALU-34 with the draw left free: the mask is on the draw, and one byte is drawn. -/
theorem test_rndVxByte_draws_one_byte :
    gives (step (start 0xC30F)) (fun t => done t && t.draws = 1 && t.pc = 0x202) = true := by decide

theorem test_rndVxByte_masks_the_draw :
    ∃ t, exec (.rndVxByte 3 0x0F) State.reset = .next t ∧ t.readV 3 = Config.rand 0 &&& 0x0F := ⟨_, rfl, rfl⟩

/-! ## Display -/

/-- DSP-1, on a frame buffer with one 1. -/
theorem test_cls :
    gives (step (setV { start 0x00E0 with fb := FrameBuffer.blank.put 63 31 true } [(15, 0x01)]))
      (fun t => done t && lit t.fb = 0 && t.readV Reg.vf = 0x01) = true := by decide

/-- DSP-4: a sprite that wraps both ways. -/
theorem test_drw_wraps :
    gives (step ((setV { start 0xD012 with i := 0x300 } [(0, 0x3E), (1, 0x1F)]).writeBytes 0x300 [0xFF, 0x81]))
      (fun t => done t && lit t.fb = 10 && t.fb.get 63 31 && t.fb.get 5 31 && t.fb.get 62 0 && t.fb.get 5 0 &&
        t.readV Reg.vf = 0x00) = true := by decide

/-- DSP-6, DSP-9. -/
theorem test_drw_collides_and_raises :
    gives (step (({ start 0xD011 with i := 0x300, fb := FrameBuffer.blank.put 0 0 true } : State).writeByte 0x300 0x80))
        (fun t => done t && lit t.fb = 0 && t.readV Reg.vf = 0x01) = true ∧
      gives (step (setV { start 0xD013 with i := 0xFFE } [(15, 0x01)]))
        (fun t => t.lastResult = some (.error (.addressOutOfRange 0x1000)) && t.pc = 0x202 && lit t.fb = 0 &&
          t.readV Reg.vf = 0x01) = true := by decide

/-- DSP-12, DSP-13. -/
theorem test_ldFVx :
    gives (step (setV (start 0xF229) [(2, 0x07)])) (fun t => done t && t.i = 0x023) = true ∧
      gives (step (setV (start 0xF029) [(0, 0x1A)])) (fun t => t.i = 0x032) = true := by decide

/-! ## Address register and memory -/

/-- MEM-2. -/
theorem test_ldIAddr : gives (step (start 0xAFFF)) (fun t => done t && t.i = 0xFFF) = true := by decide

/-- MEM-4, MEM-5. -/
theorem test_addIVx :
    gives (step (setV { start 0xF01E with i := 0xFFF } [(0, 0x01)]))
        (fun t => done t && t.i = 0x000 && t.readV Reg.vf = 0x00) = true ∧
      gives (step (setV { start 0xF01E with i := 0xFF0 } [(0, 0xFF)])) (fun t => t.i = 0x0EF) = true := by decide

/-- MEM-6. -/
theorem test_ldBVx :
    gives (step (setV { start 0xF033 with i := 0x300 } [(0, 0xFE)]))
      (fun t => done t && t.readByte 0x300 = 2 && t.readByte 0x301 = 5 && t.readByte 0x302 = 4 && t.i = 0x300) = true := by
  decide

/-- MEM-10, MEM-11. -/
theorem test_ldBVx_at_the_top :
    gives (step (setV { start 0xF033 with i := 0xFFD } [(0, 0x7B)]))
        (fun t => done t && t.readByte 0xFFD = 1 && t.readByte 0xFFE = 2 && t.readByte 0xFFF = 3) = true ∧
      gives (step (setV { start 0xF033 with i := 0xFFE } [(0, 0x7B)]))
        (fun t => t.lastResult = some (.error (.addressOutOfRange 0x1000)) && t.pc = 0x202 && t.readByte 0xFFE = 0) = true := by
  decide

/-- MEM-13. -/
theorem test_ldMemVx :
    gives (step (setV { start 0xF255 with i := 0x400 } [(0, 1), (1, 2), (2, 3), (3, 9)]))
      (fun t => done t && t.readByte 0x400 = 1 && t.readByte 0x401 = 2 && t.readByte 0x402 = 3 && t.readByte 0x403 = 0 &&
        t.i = 0x400) = true := by decide

/-- MEM-18. -/
theorem test_ldMemVx_moves_i :
    gives (step (setV { start 0xF255 with i := 0xFFD, params := { Config.Params.default with loadstoreIIncrement := true } }
      [(0, 1), (1, 2), (2, 3)])) (fun t => done t && t.readByte 0xFFF = 3 && t.i = 0x000) = true := by decide

/-- MEM-19. -/
theorem test_ldVxMem :
    gives (step ((setV { start 0xF265 with i := 0x300 } [(3, 0x77)]).writeBytes 0x300 [2, 5, 4, 8]))
      (fun t => done t && t.readV 0 = 2 && t.readV 1 = 5 && t.readV 2 = 4 && t.readV 3 = 0x77) = true := by decide

/-- MEM-22. -/
theorem test_ldVxMem_raises :
    gives (step (setV { start 0xF165 with i := 0xFFF } [(0, 0x09)]))
      (fun t => t.lastResult = some (.error (.addressOutOfRange 0x1000)) && t.readV 0 = 0x09) = true := by decide

/-! ## Keypad, timers, key wait -/

/-- KEY-3, KEY-2. -/
theorem test_skpVx :
    gives (step (setKey 5 true (setV (start 0xE19E) [(1, 0x15)]))) (fun t => done t && t.pc = 0x204) = true ∧
      gives (step (setV (start 0xE19E) [(1, 0x05)])) (fun t => done t && t.pc = 0x202) = true := by decide

/-- KEY-4, KEY-5. -/
theorem test_sknpVx :
    gives (step (setV (start 0xE1A1) [(1, 0x05)])) (fun t => done t && t.pc = 0x204) = true ∧
      gives (step (setKey 5 true (setV (start 0xE1A1) [(1, 0x05)]))) (fun t => done t && t.pc = 0x202 && t.key 5) = true := by
  decide

/-- KEY-6. -/
theorem test_ldVxDT :
    gives (step { start 0xF307 with dt := 0x3C }) (fun t => done t && t.readV 3 = 0x3C) = true := by decide

/-- KEY-7. -/
theorem test_ldDTVx : gives (step (setV (start 0xF015) [(0, 0x3C)])) (fun t => done t && t.dt = 0x3C) = true := by decide

/-- KEY-9, KEY-10. -/
theorem test_ldSTVx :
    gives (step (setV (start 0xF018) [(0, 0x02)])) (fun t => done t && t.st = 0x02 && soundOn t) = true ∧
      gives (step { start 0xF018 with st := 0x05 }) (fun t => t.st = 0x00 && !soundOn t) = true := by decide

/-- KEY-15: the step of FX0A does not poll. -/
theorem test_ldVxK :
    gives (step (setKey 4 true (start 0xF50A)))
      (fun t => t.lastResult = some (.outcome .awaitingKey) && t.aw = some 5 && t.readV 5 = 0 && t.pc = 0x202) = true := by
  decide

/-- KEY-14, KEY-12: the poll takes the lowest index, or waits on. -/
theorem test_keywait_poll :
    gives (step (setKey 2 true (setKey 9 true { start 0x0000 with aw := some 3 })))
        (fun t => done t && t.readV 3 = 0x02 && t.aw = none && t.pc = 0x200) = true ∧
      gives (step { start 0x0000 with aw := some 3 })
        (fun t => t.lastResult = some (.outcome .awaitingKey) && t.aw = some 3 && t.pc = 0x200) = true := by decide

/-! ## Host operations -/

/-- Log 30: key 2 held since before the wait does not end an edge-sensitive one, key 9 pressed since does. -/
theorem test_keywait_edge :
    gives (step { setKey 9 true (setKey 2 true (start 0x0000)) with
        aw := some 3, seenKeys := State.reset.seenKeys.set 2 true,
        params := { Config.Params.default with keyWaitSelect := ⟨.edge, .lowest⟩ } })
      (fun t => done t && t.readV 3 = 0x09 && t.aw = none) = true := by decide

/-- W2 with the default offset: PC = 0x200 and SP = 0 after a load from any state. -/
theorem test_load_default_offset :
    ∃ t r, hostOp (.load [0x60, 0x05] none) { State.reset with sp := 5, pc := 0x3A0 } = .next (t, r) ∧ t.pc = 0x200 ∧
      t.sp = 0 ∧ t.readByte 0x200 = 0x60 := ⟨_, _, rfl, by decide, rfl, by decide⟩

/-- FX07 sees a tick the host puts between two operations of an observation, and an invalid word ends it
(60_exceptions.md R148, R149). -/
theorem test_observe_takes_host_operations :
    (observe [.tickTimers, .step] { start 0xF007 with dt := 1 }).2.readV 0 = 0 ∧
      (observe [.step, .tickTimers] { start 0xF007 with dt := 1 }).2.readV 0 = 1 ∧
      (observe [.step, .setKey 1 true, .step, .step] (start 0xF007)).1 = .invalidOpcode 0x0000 := by decide

/-- TMR-1, TMR-2. -/
theorem test_tickTimers :
    (tickTimers { State.reset with dt := 1, st := 2 }).dt = 0 ∧ (tickTimers { State.reset with dt := 1, st := 2 }).st = 1 ∧
      (tickTimers State.reset).dt = 0 := by decide

/-- LD-1. -/
theorem test_reset_font :
    [0, 1, 2, 3, 4].map State.reset.readByte = [0xF0, 0x90, 0x90, 0x90, 0xF0] ∧ State.reset.readByte 0x50 = 0 := by decide

/-- Is the load accepted, with the property? -/
def loads (r : Except LoadError State) (p : State → Bool) : Bool :=
  match r with
  | .ok t => p t
  | .error _ => false

/-- LD-6. -/
theorem test_load_resets :
    loads (hostLoad [0x12, 0x00] 0x200 ((setV { State.reset with i := 0x345 } [(3, 0x11)]).writeByte 0x300 0x99))
      (fun t => t.readV 3 = 0 && t.i = 0 && t.readByte 0x300 = 0 && t.readByte 0x200 = 0x12 && t.readByte 0x201 = 0 &&
        t.pc = 0x200) = true := by decide

/-- LD-2, and the first bytes past the end of memory; LD-5. -/
theorem test_load_bounds :
    hostLoad [] 0x1000 State.reset = .error (.addressOutOfRange 0x1000) ∧
      hostLoad [1, 2] 0xFFF State.reset = .error .programTooLarge ∧
      loads (hostLoad [] 0xFFF State.reset) (fun t => t.pc = 0xFFF) = true := by
  refine ⟨rfl, rfl, by decide⟩

/-! ## Witnesses: for each statement with hypotheses, a state and operands that meet them, each clause at a boundary -/

/-- The invariant's states: reset itself, and the greatest PC, I and slot. -/
theorem test_witness_StepKeepsTheInvariant :
    StateInv State.reset ∧
      StateInv { State.reset with pc := 0xFFF, i := 0xFFF, stack := State.reset.stack.set 15 0xFFF, mem := [(0xFFF, 1)] } ∧
      gives (step State.reset) (fun _ => true) = true := by decide

theorem test_witness_ReachableStatesMeetTheInvariant :
    ∃ t, hostRun [.load [0x60, 0x05] none, .step] (State.init Config.Params.default 0) = .next t ∧ t.pc = 0x202 :=
  ⟨_, rfl, by decide⟩

theorem test_witness_DecodedWordHasNoFreeBits : decode 0x6005 = some (.ldVxByte 0 5) := by decide

theorem test_witness_FetchIsBigEndian : (State.reset.pc.toNat < 0xFFF) ∧ (0xFFE#16).toNat < 0xFFF := by decide

theorem test_witness_StepRunsTheDecodedInstruction :
    (start 0x6005).aw = none ∧ fetch (start 0x6005) = .ok 0x6005 ∧ decode 0x6005 = some (.ldVxByte 0 5) :=
  ⟨by decide, rfl, by decide⟩

theorem test_witness_InvalidWordOnlyAdvancesPC :
    State.reset.aw = none ∧ fetch State.reset = .ok 0xF090 ∧ decode 0xF090 = none := ⟨by decide, rfl, by decide⟩

theorem test_witness_FetchAtTheLastByteRaises :
    ({ State.reset with pc := 0xFFF } : State).aw = none ∧ ({ State.reset with pc := 0xFFF } : State).pc.toNat = 0xFFF := by
  decide

/-- A wait in which keys 9 and 15 are pressed and none below 9. -/
def waiting : State := setKey 9 true (setKey 15 true { State.reset with aw := some 15 })

theorem test_witness_PollTakesTheSelectedKey :
    waiting.aw = some 15 ∧ KeyCounts waiting 9 ∧ (∀ j : Reg, j < 9 → ¬ KeyCounts waiting j) ∧
      waiting.params.keyWaitSelect.order = .lowest ∧ (0 : Reg) ≠ 15 := by
  unfold KeyCounts; decide

/-- The same wait, edge-sensitive and highest index first, with key 15 held since before it. -/
def waitingEdge : State :=
  { waiting with
    params := { Config.Params.default with keyWaitSelect := ⟨.edge, .highest⟩ }
    seenKeys := State.reset.seenKeys.set 15 true }

theorem test_witness_PollTakesTheSelectedKey_edge :
    waitingEdge.aw = some 15 ∧ KeyCounts waitingEdge 9 ∧ (∀ j : Reg, 9 < j → ¬ KeyCounts waitingEdge j) ∧
      waitingEdge.params.keyWaitSelect.order = .highest := by
  unfold KeyCounts; decide

theorem test_witness_PollWithoutAKeyChangesNothing :
    (({ State.reset with aw := some 0 } : State).aw = some 0 ∧
      ∀ k : Reg, ¬ KeyCounts { State.reset with aw := some 0 } k) ∧
      ({ waitingEdge with seenKeys := waiting.keys } : State).params.keyWaitSelect.sense = .edge ∧
      ∀ k : Reg, ¬ KeyCounts { waitingEdge with seenKeys := waiting.keys } k := by
  unfold KeyCounts; decide

theorem test_witness_InstructionsChangeOnlyTheirParts :
    gives (exec (.ldVxByte 0 5) State.reset) (fun _ => true) = true ∧ gives (exec .ret State.reset) (fun _ => true) = true := by
  decide

/-- I at the greatest value a block of V0 to V2 allows, with the parameter set and clear. -/
def block (moves : Bool) : State :=
  setV { State.reset with i := 0xFFD, params := { Config.Params.default with loadstoreIIncrement := moves } } [(0, 7), (2, 9)]

theorem test_witness_BlockTransfersMoveIByTheParameter :
    ((block true).i.toNat + (2 : Reg).val = 0xFFF ∧ (block true).params.loadstoreIIncrement = true) ∧
      (block false).i.toNat + (2 : Reg).val = 0xFFF ∧ (block false).params.loadstoreIIncrement = false := by decide

theorem test_witness_OnlyTheListedInstructionsChangeVF :
    (setsFlag State.reset (.addVxVy 15 15) = true ∧ gives (exec (.addVxVy 15 15) State.reset) done = true) ∧
      setsFlag State.reset (.ldVxByte 14 1) = false ∧ writesVfAsVx (.ldVxByte 14 1) = false ∧
      gives (exec (.ldVxByte 14 1) State.reset) done = true := by decide

theorem test_witness_StepsLeaveKeypadAndTimersAlone :
    gives (step (setV (start 0xF015) [(0, 3)])) (fun t => t.dt ≠ 0 && t.st = 0) = true ∧
      gives (step (setV (start 0xF018) [(0, 3)])) (fun t => t.dt = 0 && t.st ≠ 0) = true := by decide

/-- Each cause of an error a step returns (60_exceptions.md R130). -/
theorem test_witness_ErrorsHaveOnlyTheListedCauses :
    gives (step { start 0x00EE with sp := 0 }) (fun t => t.lastResult = some (.error .stackUnderflow)) = true ∧
      gives (step { start 0x2400 with sp := 16 }) (fun t => t.lastResult = some (.error .stackOverflow)) = true ∧
      gives (step { start 0xF155 with i := 0xFFF })
        (fun t => t.lastResult = some (.error (.addressOutOfRange 0x1000))) = true ∧
      gives (step { State.reset with pc := 0xFFF })
        (fun t => t.lastResult = some (.error (.addressOutOfRange 0x1000))) = true := by decide

/-- I at the address PC fetches from next, the last place a word fits. -/
theorem test_witness_StoredBytesAreFetchedNext :
    1 ≤ (1 : Reg).val ∧ ({ State.reset with pc := 0xFFE, i := 0xFFE } : State).i = 0xFFE#16 ∧
      ({ State.reset with pc := 0xFFE, i := 0xFFE } : State).i.toNat + (1 : Reg).val ≤ 0xFFF := by decide

theorem test_witness_ReturnPopsTheReturnAddress :
    ({ State.reset with sp := 1 } : State).sp.val = (0 : Fin 16).val + 1 ∧
      ({ State.reset with sp := 16 } : State).sp.val = (15 : Fin 16).val + 1 ∧ State.reset.sp.val = 0 := by decide

theorem test_witness_CallPushesTheNextAddress :
    State.reset.sp.val < 16 ∧ ({ State.reset with sp := 15 } : State).sp.val < 16 ∧
      ({ State.reset with sp := 16 } : State).sp.val = 16 := by decide

theorem test_witness_ReturnContinuesAfterTheCall :
    ({ State.reset with sp := 15, pc := 0xFFF } : State).sp.val < 16 ∧
      ({ State.reset with sp := 15, pc := 0xFFF } : State).pc.toNat ≤ 0xFFF := by decide

theorem test_witness_SixteenNestedCallsThenOverflow :
    State.reset.sp.val = 0 ∧ (List.replicate 16 (0x200 : BitVec 12)).length = 16 ∧
      List.replicate 16 (0x200 : BitVec 12) ≠ [] := by decide

theorem test_witness_JumpsSetThePC :
    State.reset.params.jumpOffsetReg = .v0 ∧
      ({ Config.Params.default with jumpOffsetReg := .vx } : Config.Params).jumpOffsetReg = .vx ∧
      (15 : Reg).val = (0xFFF : BitVec 12).toNat / 0x100 ∧ (0 : Reg).val = (0x0FF : BitVec 12).toNat / 0x100 := by decide

/-- CF-4, and the last address a word fits. -/
theorem test_witness_SelfJumpIsTheIdleLoop :
    ((start 0x1200).aw = none ∧ (start 0x1200).pc.toNat < 0xFFF ∧
      fetch (start 0x1200) = .ok (0x1#4 ++ BitVec.ofNat 12 (start 0x1200).pc.toNat)) ∧
      fetch (({ State.reset with pc := 0xFFE } : State).withFetchWord 16 0x1FFE) = .ok (0x1#4 ++ 0xFFE#12) :=
  ⟨⟨by decide, by decide, rfl⟩, rfl⟩

theorem test_witness_RegisterSkipsTestTheirCondition :
    (1 : BitVec 4) ≠ 0 ∧ (15 : BitVec 4) ≠ 0 ∧ State.reset.readV 0 = 0x00 ∧ State.reset.readV 0 ≠ 0xFF := by decide

theorem test_witness_LoadImmediateSetsVX :
    (start 0x6FFF).aw = none ∧ fetch (start 0x6FFF) = .ok (0x6#4 ++ regBits 15 ++ 0xFF#8) ∧ (0 : Reg) ≠ 15 :=
  ⟨by decide, rfl, by decide⟩

theorem test_witness_ImmediateAddAndMoveSetOnlyVX : (0 : Reg) ≠ 15 ∧ (15 : Reg) ≠ 0 := by decide

theorem test_witness_LogicGroupComputesBitwise :
    State.reset.params.logicVfReset = false ∧
      ({ Config.Params.default with logicVfReset := true } : Config.Params).logicVfReset = true ∧
      (14 : Reg) ≠ Reg.vf ∧ (14 : Reg) ≠ 15 := by decide

theorem test_witness_AddSetsTheCarry : (14 : Reg) ≠ Reg.vf ∧ (0 : Reg) ≠ 14 ∧ (0 : Reg) ≠ Reg.vf := by decide

theorem test_witness_SubtractionsSetNotBorrow : (14 : Reg) ≠ Reg.vf ∧ (0 : Reg) ≠ 14 ∧ (0 : Reg) ≠ Reg.vf := by decide

theorem test_witness_RandomByteIsMasked : (0 : Reg) ≠ 15 := by decide

/-- Both sources of a shift. -/
theorem test_witness_ShiftsMoveABitIntoVF :
    (State.reset.params.shiftSource = .vx ∧ 0 = (State.reset.readV 0).toNat) ∧
      ({ Config.Params.default with shiftSource := .vy } : Config.Params).shiftSource = .vy ∧ (0 : Reg) ≠ Reg.vf := by decide

/-- One pixel of a sprite at (0, 0), read from the last byte of memory. -/
def sprite (pixel : Bool) : State :=
  ({ State.reset with i := 0xFFF, fb := FrameBuffer.blank.put 0 0 pixel } : State).writeByte 0xFFF 0x80

theorem test_sprite_hits_its_pixel (b : Bool) : SpriteHits (sprite b) 0 0 0xFFF 1 0 0 :=
  ⟨0, 0, by decide, by decide, by revert b; decide, by decide, by decide⟩

theorem test_sprite_hits_no_other_pixel (b : Bool) (px : Fin 64) (py : Fin 32) (h : SpriteHits (sprite b) 0 0 0xFFF 1 px py) :
    px = 0 ∧ py = 0 := by
  obtain ⟨r, c, hr, hc, hb, hx, hy⟩ := h
  obtain rfl : r = 0 := by omega
  have h80 : ∀ b : Bool, (sprite b).readByte (0xFFF + 0) = 0x80 := by decide
  rw [h80 b] at hb
  have h0 : c = 0 := by interval_cases c <;> first | rfl | (exact absurd hb (by decide))
  subst h0
  exact ⟨Fin.ext hx, Fin.ext hy⟩

theorem test_witness_DrawXorsTheSprite :
    (sprite true).i.toNat + (1 : BitVec 4).toNat ≤ 0x1000 ∧
      (∃ px py, SpriteHits (sprite true) 0 0 0xFFF 1 px py ∧ (sprite true).fb.get px py = true) ∧
      (∀ px py, SpriteHits (sprite false) 0 0 0xFFF 1 px py → (sprite false).fb.get px py = false) ∧
      ¬ SpriteHits (sprite true) 0 0 0xFFF 1 1 0 :=
  ⟨by decide, ⟨0, 0, test_sprite_hits_its_pixel true, by decide⟩,
    fun px py h => by obtain ⟨rfl, rfl⟩ := test_sprite_hits_no_other_pixel false px py h; decide,
    fun h => absurd (test_sprite_hits_no_other_pixel true 1 0 h).1 (by decide)⟩

/-- N = 0 is drawn from anywhere (43_display.md R116, D33). -/
theorem test_witness_DrawXorsTheSprite_without_rows : (0 : BitVec 4).toNat = 0 := by decide

theorem test_witness_DrawingTwiceRestoresTheFrameBuffer :
    (sprite false).i.toNat + (1 : BitVec 4).toNat ≤ 0x1000 ∧
      gives (exec (.drwVxVyNibble 0 1 1) (sprite false))
        (fun t => t.readV 0 = (sprite false).readV 0 && t.readV 1 = (sprite false).readV 1) = true ∧
      lit (sprite false).fb = 0 ∧ (sprite false).readByte ((sprite false).i.toNat + 0) ≠ 0 := by decide

theorem test_witness_RangeErrorsLeaveNoPartialEffect :
    (0 < (2 : BitVec 4).toNat ∧ (0xFFF#16).toNat + (2 : BitVec 4).toNat - 1 > 0xFFF) ∧ (0xFFE#16).toNat + 2 > 0xFFF ∧
      (0xFFF#16).toNat + (1 : Reg).val > 0xFFF := by decide

theorem test_witness_FontAddressPointsAtTheGlyph :
    State.reset.mem = [] ∧ State.reset.params.fontDigitMask = 0x0F ∧ 4 < 5 ∧
      15 = ((setV State.reset [(0, 0xFF)]).readV 0 &&& State.reset.params.fontDigitMask).toNat ∧ 5 * 15 + 4 < 80 := by decide

theorem test_witness_BcdStoresThreeDigits :
    ({ State.reset with i := 0xFFD } : State).i.toNat + 2 ≤ 0xFFF ∧ 0xFFC < indexAddr { State.reset with i := 0xFFD } ∧
      indexAddr { State.reset with i := 0xFFC } + 2 < 0xFFF := by decide

theorem test_witness_BlockStoreWritesTheRegisters :
    (block false).i.toNat + (2 : Reg).val ≤ 0xFFF ∧ (2 : Reg) ≤ 2 ∧ 0xFFC < indexAddr (block false) ∧
      indexAddr (block false) + (1 : Reg).val < 0xFFF := by decide

theorem test_witness_BlockLoadFillsTheRegisters :
    (block true).i.toNat + (2 : Reg).val ≤ 0xFFF ∧ (0 : Reg) ≤ 2 ∧ (2 : Reg) < 3 := by decide

theorem test_witness_BlockStoreThenLoadRestores :
    (block false).i.toNat + (2 : Reg).val ≤ 0xFFF ∧ (block false).params.loadstoreIIncrement = false ∧ (2 : Reg) ≤ 2 := by
  decide

theorem test_witness_KeySkipsTestTheKey :
    (15 : Reg).val = ((setV State.reset [(3, 0x1F)]).readV 3 &&& State.reset.params.keyIndexMask.setWidth 8).toNat ∧
      (0 : Reg).val = (State.reset.readV 3 &&& State.reset.params.keyIndexMask.setWidth 8).toNat ∧
      State.reset.params.keyIndexMask = 0xF := by decide

theorem test_witness_TimerInstructionsMoveTheTimers : (0 : Reg) ≠ 15 := by decide

theorem test_witness_KeyWaitIsEnteredAndEnded :
    (State.reset.params.keyWaitSelect = ⟨.level, .lowest⟩ ∧ ∀ j : Reg, j < 15 → State.reset.key j = false) ∧
      waitingEdge.params.keyWaitSelect = ⟨.edge, .highest⟩ ∧ (∀ j : Reg, 15 < j → waitingEdge.key j = false) ∧
      State.reset.key 15 = false := by decide

theorem test_witness_InitGivesTheResetTable :
    State.reset = State.init Config.Params.default 0 ∧ (0x50 : Nat) ≥ Config.Params.default.fontBase.val + 80 :=
  ⟨rfl, by decide⟩

/-- The whole of memory, and one byte in its last place. -/
theorem test_witness_LoadResetsAndWritesTheProgram :
    (0xFFF = (some 0xFFF).getD 0x200 ∧ 0xFFF + [(0xAB : Byte)].length ≤ 4096) ∧ 0x200 = (none : Option Nat).getD 0x200 ∧
      0 = (some 0).getD 0x200 ∧ 0 + (List.replicate 4096 (0 : Byte)).length ≤ 4096 := by
  refine ⟨by decide, rfl, rfl, ?_⟩
  rw [List.length_replicate]

theorem test_witness_RejectedLoadChangesNothing :
    (0x1000 = (some 0x1000).getD 0x200 ∧ 0x1000 > 0xFFF) ∧ (0xFFF = (some 0xFFF).getD 0x200 ∧ 0xFFF ≤ 0xFFF) ∧
      0xFFF + [(1 : Byte), 2].length > 4096 := by decide

theorem test_witness_AccessorsOnlyRead : 4095 < 4096 := by decide

theorem test_witness_ParametersAndOracleOutliveEverything :
    ∃ t r, hostOp .step (start 0xC0FF) = .next (t, r) ∧ t.draws = 1 := ⟨_, _, rfl, rfl⟩

theorem test_witness_PlacedWordRunsNext : decodeTableWord 16 0x6005 = some (.ldVxByte 0 5) := by decide

theorem test_witness_HostOperationsKeepTheInvariant :
    StateInv State.reset ∧ ∃ t r, hostOp (.load [0xAB] (some 0xFFF)) State.reset = .next (t, r) ∧ t.pc = 0xFFF :=
  ⟨by decide, _, _, rfl, by decide⟩

theorem test_witness_ObservationsHoldUnderEveryHost :
    StateInv (start 0x1200) ∧ (start 0x1200).aw = none ∧ (start 0x1200).pc.toNat < 0xFFF ∧
      fetch (start 0x1200) = .ok (0x1#4 ++ BitVec.ofNat 12 (start 0x1200).pc.toNat) ∧
      ∀ op ∈ [HostOp.tickTimers, .setKey 3 true, .step], KeepsProgram op :=
  ⟨by decide, by decide, by decide, rfl, by simp [KeepsProgram]⟩

end Sys2Proof.Tests
end

section
/-! Memory (20_memory.md): the byte order of the fetched opcode. -/

namespace Sys2Proof

/-- The first byte of a word is its bits 15:8 (20_memory.md R53). -/
theorem wordOfBytes_toNat (hi lo : Byte) : (wordOfBytes hi lo).toNat = 256 * hi.toNat + lo.toNat := by
  rw [wordOfBytes, BitVec.toNat_append, ← Nat.shiftLeft_add_eq_or_of_lt lo.isLt, Nat.shiftLeft_eq, Nat.mul_comm]

end Sys2Proof

namespace Sys2Proof.Machine

/-- The one case of `fetch_cases` in which both bytes lie in memory. -/
theorem fetch_of_pc_lt {s : State} (h : s.pc.toNat < 0xFFF) :
    fetch s = .ok (wordOfBytes (s.readByte s.pc.toNat) (s.readByte (s.pc.toNat + 1))) := by
  obtain ⟨-, hf⟩ | ⟨hpc, -⟩ | ⟨hpc, -⟩ := fetch_cases s
  · exact hf
  · omega
  · omega

/-- Settles O6: below 0xFFF the fetch answers the word of the two bytes, whose value `wordOfBytes_toNat` gives. -/
theorem fetchIsBigEndian : Obligations.FetchIsBigEndian := by
  intro s h
  exact ⟨_, fetch_of_pc_lt h, wordOfBytes_toNat _ _⟩

end Sys2Proof.Machine
end

section
/-! The step cycle (40_step_cycle.md): a fetched word that matches no row. -/

namespace Sys2Proof.Machine

open Sys2Proof.Safety

theorem State.addTwo_pc_toNat (s : State) : s.addTwo.pc.toNat = (s.pc.toNat + 2) % 0x1000 :=
  toNat_ofNat_mod _

/-- The one case of `step_cases` in which a word is fetched and decodes to nothing (R84). -/
theorem step_of_decode_none {s : State} {w : Word} (ha : s.aw = none) (hf : fetch s = .ok w) (hd : decode w = none) :
    step s = invalidOpcode w s.addTwo := by
  obtain ⟨x, ha', -⟩ | ⟨e, -, hf', -⟩ | ⟨w', -, hf', -, hs⟩ | ⟨w', i, -, hf', hd', -⟩ := step_cases s
  · simp [ha] at ha'
  · simp [hf] at hf'
  · obtain rfl : w = w' := by simpa [hf] using hf'
    exact hs
  · obtain rfl : w = w' := by simpa [hf] using hf'
    simp [hd] at hd'

/-- The advance of PC (R82), with the result of the step recorded, moves nothing but PC. -/
theorem keepsAllBut_addTwo_lastResult (s : State) (r : Option StepResult) :
    KeepsAllBut [.pc] s { s.addTwo with lastResult := r } := by
  apply KeepsAllBut.of_fields <;> simp

/-- Settles O8: the step is `invalidOpcode` on the advanced state, which only records the outcome. -/
theorem invalidWordOnlyAdvancesPC : Obligations.InvalidWordOnlyAdvancesPC := by
  intro s w ha hf hd
  have hstep := (step_of_decode_none ha hf hd).trans (invalidOpcode_eq w s.addTwo)
  exact ⟨_, hstep, rfl, s.addTwo_pc_toNat, keepsAllBut_addTwo_lastResult s _⟩

end Sys2Proof.Machine
end

section
/-! Control flow (41_control_flow.md): the skips on registers, their words and what a conditional skip does. -/

namespace Sys2Proof

/-! ## The words of the four skips, by their major opcode (30_encoding.md R68, R69) -/

theorem decode_of_fieldH_3 {w : Word} (h : fieldH w = 0x3#4) : decode w = some (.seVxByte (fieldX w) (fieldKK w)) := by
  simp [decode, h]

theorem decode_of_fieldH_4 {w : Word} (h : fieldH w = 0x4#4) : decode w = some (.sneVxByte (fieldX w) (fieldKK w)) := by
  simp [decode, h]

theorem decode_of_fieldH_5 {w : Word} (h : fieldH w = 0x5#4) :
    decode w = if fieldN w = 0 then some (.seVxVy (fieldX w) (fieldY w)) else none := by
  simp [decode, h]

theorem decode_of_fieldH_9 {w : Word} (h : fieldH w = 0x9#4) :
    decode w = if fieldN w = 0 then some (.sneVxVy (fieldX w) (fieldY w)) else none := by
  simp [decode, h]

theorem decode_3xkk (x : Reg) (kk : Byte) : decode (0x3#4 ++ regBits x ++ kk) = some (.seVxByte x kk) := by
  rw [decode_of_fieldH_3 (fieldH_xkk _ x kk), fieldX_xkk, fieldKK_xkk]

theorem decode_4xkk (x : Reg) (kk : Byte) : decode (0x4#4 ++ regBits x ++ kk) = some (.sneVxByte x kk) := by
  rw [decode_of_fieldH_4 (fieldH_xkk _ x kk), fieldX_xkk, fieldKK_xkk]

/-- The low nibble of 5XYN must be 0 (41_control_flow.md R100). -/
theorem decode_5xyn (x y : Reg) (n : BitVec 4) :
    decode (0x5#4 ++ regBits x ++ regBits y ++ n) = if n = 0 then some (.seVxVy x y) else none := by
  rw [decode_of_fieldH_5 (fieldH_xyn _ x y n), fieldN_xyn, fieldX_xyn, fieldY_xyn]

/-- The low nibble of 9XYN must be 0 (41_control_flow.md R101). -/
theorem decode_9xyn (x y : Reg) (n : BitVec 4) :
    decode (0x9#4 ++ regBits x ++ regBits y ++ n) = if n = 0 then some (.sneVxVy x y) else none := by
  rw [decode_of_fieldH_9 (fieldH_xyn _ x y n), fieldN_xyn, fieldX_xyn, fieldY_xyn]

end Sys2Proof

namespace Sys2Proof.Machine

open Sys2Proof.Safety

/-! ## The meanings of the four skips -/

theorem exec_seVxByte (x : Reg) (kk : Byte) (s : State) :
    exec (.seVxByte x kk) s = executed (s.skipIf (decide (s.readV x = kk))) := rfl

theorem exec_sneVxByte (x : Reg) (kk : Byte) (s : State) :
    exec (.sneVxByte x kk) s = executed (s.skipIf (decide (s.readV x ≠ kk))) := rfl

theorem exec_seVxVy (x y : Reg) (s : State) :
    exec (.seVxVy x y) s = executed (s.skipIf (decide (s.readV x = s.readV y))) := rfl

theorem exec_sneVxVy (x y : Reg) (s : State) :
    exec (.sneVxVy x y) s = executed (s.skipIf (decide (s.readV x ≠ s.readV y))) := rfl

/-! ## What a conditional skip does (R93) -/

theorem State.skipIf_pc_toNat (s : State) (c : Bool) :
    (s.skipIf c).pc.toNat = if c then (s.pc.toNat + 2) % 0x1000 else s.pc.toNat := by
  cases c
  · rfl
  · exact s.addTwo_pc_toNat

/-- A conditional skip, with the result of the step recorded, moves nothing but PC. -/
theorem keepsAllBut_skipIf_lastResult (s : State) (c : Bool) (r : Option StepResult) :
    KeepsAllBut [.pc] s { s.skipIf c with lastResult := r } := by
  apply KeepsAllBut.of_fields <;> simp

/-- All that an instruction does whose meaning is a conditional skip. -/
theorem executed_skipIf (s : State) (c : Bool) :
    ∃ t, executed (s.skipIf c) = .next t ∧ Executed t ∧ KeepsAllBut [.pc] s t ∧
      t.pc.toNat = if c then (s.pc.toNat + 2) % 0x1000 else s.pc.toNat :=
  ⟨_, executed_eq _, rfl, keepsAllBut_skipIf_lastResult s c _, s.skipIf_pc_toNat c⟩

/-- Settles O29: the words by `decode_3xkk` to `decode_9xyn`, and each meaning is one `executed_skipIf`, whose branches
the two `SNE` forms exchange. -/
theorem registerSkipsTestTheirCondition : Obligations.RegisterSkipsTestTheirCondition := by
  intro x y kk s
  refine ⟨fun n hn => ⟨?_, ?_⟩, decode_3xkk x kk, decode_4xkk x kk, decode_5xyn x y 0, decode_9xyn x y 0,
    ?_, ?_, ?_, ?_⟩
  · rw [decode_5xyn, if_neg hn]
  · rw [decode_9xyn, if_neg hn]
  · simpa only [exec_seVxByte, decide_eq_true_eq] using executed_skipIf s (decide (s.readV x = kk))
  · simpa only [exec_sneVxByte, decide_eq_true_eq, ne_eq, ite_not] using executed_skipIf s (decide (s.readV x ≠ kk))
  · simpa only [exec_seVxVy, decide_eq_true_eq] using executed_skipIf s (decide (s.readV x = s.readV y))
  · simpa only [exec_sneVxVy, decide_eq_true_eq, ne_eq, ite_not] using
      executed_skipIf s (decide (s.readV x ≠ s.readV y))

end Sys2Proof.Machine
end

section
/-! Register loads (42_register_alu.md): the word of `LD Vx, byte`, and an instruction that writes one register. -/

namespace Sys2Proof

theorem decode_of_fieldH_6 {w : Word} (h : fieldH w = 0x6#4) : decode w = some (.ldVxByte (fieldX w) (fieldKK w)) := by
  simp [decode, h]

theorem decode_6xkk (x : Reg) (kk : Byte) : decode (0x6#4 ++ regBits x ++ kk) = some (.ldVxByte x kk) := by
  rw [decode_of_fieldH_6 (fieldH_xkk _ x kk), fieldX_xkk, fieldKK_xkk]

end Sys2Proof

namespace Sys2Proof.Machine

open Sys2Proof.Safety

/-- The one case of `step_cases` in which a word is fetched and decoded (R82, R83). -/
theorem step_of_decode_some {s : State} {w : Word} {i : Instr} (ha : s.aw = none) (hf : fetch s = .ok w)
    (hd : decode w = some i) : step s = exec i s.addTwo := by
  obtain ⟨x, ha', -⟩ | ⟨e, -, hf', -⟩ | ⟨w', -, hf', hd', -⟩ | ⟨w', i', -, hf', hd', hs⟩ := step_cases s
  · simp [ha] at ha'
  · simp [hf] at hf'
  · obtain rfl : w = w' := by simpa [hf] using hf'
    simp [hd] at hd'
  · obtain rfl : w = w' := by simpa [hf] using hf'
    obtain rfl : i = i' := by simpa [hd] using hd'
    exact hs

/-- A register write, with the result of the step recorded, moves nothing but the V registers. -/
theorem keepsAllBut_writeV_lastResult (s : State) (x : Reg) (b : Byte) (r : Option StepResult) :
    KeepsAllBut [.v] s { s.writeV x b with lastResult := r } := by
  apply KeepsAllBut.of_fields <;> simp

/-- All that an instruction does whose meaning is one register write. -/
theorem executed_writeV (s : State) (x : Reg) (b : Byte) :
    ∃ t, executed (s.writeV x b) = .next t ∧ Executed t ∧ t.readV x = b ∧
      (∀ y : Reg, y ≠ x → t.readV y = s.readV y) ∧ KeepsAllBut [.v] s t :=
  ⟨_, executed_eq _, rfl, s.readV_writeV_self x b, fun _ hy => s.readV_writeV_ne b hy,
    keepsAllBut_writeV_lastResult s x b _⟩

theorem exec_ldVxByte (x : Reg) (kk : Byte) (s : State) : exec (.ldVxByte x kk) s = executed (s.writeV x kk) := rfl

/-- Settles O30: the meaning is one `executed_writeV`, and the step applies it to the state whose PC has advanced (R82),
which the frame of the write keeps. -/
theorem loadImmediateSetsVX : Obligations.LoadImmediateSetsVX := by
  intro x kk s
  refine ⟨decode_6xkk x kk, executed_writeV s x kk, fun ha hf => ?_⟩
  obtain ⟨t, ht, hdone, hx, -, hkeep⟩ := executed_writeV s.addTwo x kk
  have hstep : step s = .next t := by rw [step_of_decode_some ha hf (decode_6xkk x kk), exec_ldVxByte, ht]
  have hpc : t.pc = s.addTwo.pc := hkeep.pc (by decide)
  exact ⟨t, hstep, hdone, hx, by rw [hpc, s.addTwo_pc_toNat]⟩

end Sys2Proof.Machine
end

section
/-! Display (43_display.md): the one word of CLS, and an instruction that replaces the frame buffer. -/

namespace Sys2Proof

/-! ## The sub-decoders and CLS (30_encoding.md R69) -/

theorem decode0_eq_some_cls_iff (w : Word) : decode0 w = some .cls ↔ w = 0x00E0 := by
  fun_cases decode0 w
  case case1 h => exact iff_of_true rfl h
  case case2 h _ => exact iff_of_false nofun h
  case case3 h _ => exact iff_of_false nofun h

theorem decode8_ne_cls (w : Word) : decode8 w ≠ some .cls := by
  fun_cases decode8 w <;> exact nofun

theorem decodeE_ne_cls (w : Word) : decodeE w ≠ some .cls := by
  fun_cases decodeE w <;> exact nofun

theorem decodeF_ne_cls (w : Word) : decodeF w ≠ some .cls := by
  fun_cases decodeF w <;> exact nofun

/-- Among the major opcodes only H = 0x0 can give CLS (R68, R69). -/
theorem decode_ne_cls_of_fieldH {w : Word} (h : fieldH w ≠ 0x0) : decode w ≠ some .cls := by
  fun_cases decode w
  case case1 h0 => exact absurd h0 h
  all_goals simp [decode8_ne_cls, decodeE_ne_cls, decodeF_ne_cls]

theorem decode_of_fieldH_0 {w : Word} (h : fieldH w = 0x0) : decode w = decode0 w := if_pos h

theorem decode_eq_some_cls_iff (w : Word) : decode w = some .cls ↔ w = 0x00E0 := by
  by_cases h : fieldH w = 0x0
  · rw [decode_of_fieldH_0 h, decode0_eq_some_cls_iff]
  · refine iff_of_false (decode_ne_cls_of_fieldH h) ?_
    rintro rfl
    exact h (by decide)

end Sys2Proof

namespace Sys2Proof.Machine

open Sys2Proof.Safety

/-- A new frame buffer, with the result of the step recorded, moves nothing but the frame buffer. -/
theorem keepsAllBut_fb_lastResult (s : State) (fb : FrameBuffer) (r : Option StepResult) :
    KeepsAllBut [.fb] s { s with fb := fb, lastResult := r } := by
  apply KeepsAllBut.of_fields <;> simp

theorem exec_cls (s : State) : exec .cls s = executed { s with fb := FrameBuffer.blank } := rfl

/-- Settles O37: the word by `decode_eq_some_cls_iff`; the meaning is one replacement of the frame buffer by the blank
one, whose every pixel is 0 (`FrameBuffer.get_blank`). -/
theorem clearScreenZeroesEveryPixel : Obligations.ClearScreenZeroesEveryPixel := by
  refine ⟨decode_eq_some_cls_iff, fun s => ?_⟩
  have hexec := (exec_cls s).trans (executed_eq _)
  exact ⟨_, hexec, rfl, FrameBuffer.get_blank, keepsAllBut_fb_lastResult s _ _⟩

end Sys2Proof.Machine
end

section
/-! The address register (44_index_memory.md): the word of `LD I, addr`, and an instruction that writes I. -/

namespace Sys2Proof

theorem decode_of_fieldH_A {w : Word} (h : fieldH w = 0xA#4) : decode w = some (.ldIAddr (fieldNNN w)) := by
  simp [decode, h]

theorem decode_Annn (nnn : BitVec 12) : decode (0xA#4 ++ nnn) = some (.ldIAddr nnn) := by
  rw [decode_of_fieldH_A (fieldH_nnn _ nnn), fieldNNN_nnn]

end Sys2Proof

namespace Sys2Proof.Machine

open Sys2Proof.Safety

/-- A write of I, with the result of the step recorded, moves nothing but I. -/
theorem keepsAllBut_writeI_lastResult (s : State) (n : Nat) (r : Option StepResult) :
    KeepsAllBut [.i] s { s.writeI n with lastResult := r } := by
  apply KeepsAllBut.of_fields <;> simp

/-- All that an instruction does whose meaning is one write of I. -/
theorem executed_writeI (s : State) (n : Nat) :
    ∃ t, executed (s.writeI n) = .next t ∧ Executed t ∧ t.i.toNat = n % 0x1000 ∧ KeepsAllBut [.i] s t :=
  ⟨_, executed_eq _, rfl, toNat_ofNat_mod n, keepsAllBut_writeI_lastResult s n _⟩

theorem exec_ldIAddr (nnn : BitVec 12) (s : State) : exec (.ldIAddr nnn) s = executed (s.writeI nnn.toNat) := rfl

/-- Settles O42: the meaning is one `executed_writeI`, and its reduction modulo 0x1000 leaves a 12-bit NNN as it is. -/
theorem loadIndexSetsI : Obligations.LoadIndexSetsI := by
  intro nnn s
  have hmod : nnn.toNat % 0x1000 = nnn.toNat := Nat.mod_eq_of_lt nnn.isLt
  refine ⟨decode_Annn nnn, ?_⟩
  simpa only [exec_ldIAddr, hmod] using executed_writeI s nnn.toNat

end Sys2Proof.Machine
end

section
/-! The timers (60_exceptions.md R138): one tick, and a run of ticks. -/

namespace Sys2Proof.Machine

open Sys2Proof.Safety

/-- The guard of `tickDown` makes its byte subtraction the subtraction of naturals, which stops at 0. -/
theorem tickDown_toNat (t : Byte) : (tickDown t).toNat = t.toNat - 1 := by
  unfold tickDown
  split
  case isTrue hpos => exact BitVec.toNat_sub_of_le (x := t) (y := 1) (BitVec.le_def.mpr hpos)
  case isFalse hzero => omega

@[simp] theorem tickTimers_dt_toNat (s : State) : (tickTimers s).dt.toNat = s.dt.toNat - 1 := tickDown_toNat s.dt
@[simp] theorem tickTimers_st_toNat (s : State) : (tickTimers s).st.toNat = s.st.toNat - 1 := tickDown_toNat s.st

theorem hostOp_tickTimers (s : State) : hostOp .tickTimers s = .next (tickTimers s, .nothing) := rfl

/-- A tick moves nothing but the two timers. -/
theorem keepsAllBut_tickTimers (s : State) : KeepsAllBut [.dt, .st] s (tickTimers s) := by
  apply KeepsAllBut.of_fields <;> simp

theorem iterate_tickTimers_toNat (n : Nat) (s : State) :
    (tickTimers^[n] s).dt.toNat = s.dt.toNat - n ∧ (tickTimers^[n] s).st.toNat = s.st.toNat - n := by
  induction n with
  | zero => exact ⟨rfl, rfl⟩
  | succ n ih =>
    obtain ⟨hdt, hst⟩ := ih
    rw [Function.iterate_succ_apply', tickTimers_dt_toNat, tickTimers_st_toNat, hdt, hst]
    exact ⟨Nat.sub_sub .., Nat.sub_sub ..⟩

/-- Settles O51: one tick by the laws of `tickTimers`, n ticks by induction on n. -/
theorem ticksCountTheTimersDown : Obligations.TicksCountTheTimersDown :=
  ⟨fun s => ⟨hostOp_tickTimers s, tickTimers_dt_toNat s, tickTimers_st_toNat s, keepsAllBut_tickTimers s,
    tickTimers_lastResult s⟩, iterate_tickTimers_toNat⟩

end Sys2Proof.Machine
end

section
/-! Decoding and encoding (30_encoding.md): the words of each format, the round trip in both directions, the rows of the
opcode table, and the invalid words. -/

namespace Sys2Proof

/-- Everything decoding can do, by the major opcode (R68). -/
theorem decode_cases (w : Word) :
    (fieldH w = 0x0 ∧ decode w = decode0 w) ∨
    (fieldH w = 0x1 ∧ decode w = some (.jpAddr (fieldNNN w))) ∨
    (fieldH w = 0x2 ∧ decode w = some (.callAddr (fieldNNN w))) ∨
    (fieldH w = 0x3 ∧ decode w = some (.seVxByte (fieldX w) (fieldKK w))) ∨
    (fieldH w = 0x4 ∧ decode w = some (.sneVxByte (fieldX w) (fieldKK w))) ∨
    (fieldH w = 0x5 ∧ decode w = if fieldN w = 0 then some (.seVxVy (fieldX w) (fieldY w)) else none) ∨
    (fieldH w = 0x6 ∧ decode w = some (.ldVxByte (fieldX w) (fieldKK w))) ∨
    (fieldH w = 0x7 ∧ decode w = some (.addVxByte (fieldX w) (fieldKK w))) ∨
    (fieldH w = 0x8 ∧ decode w = decode8 w) ∨
    (fieldH w = 0x9 ∧ decode w = if fieldN w = 0 then some (.sneVxVy (fieldX w) (fieldY w)) else none) ∨
    (fieldH w = 0xA ∧ decode w = some (.ldIAddr (fieldNNN w))) ∨
    (fieldH w = 0xB ∧ decode w = some (.jpV0Addr (fieldNNN w))) ∨
    (fieldH w = 0xC ∧ decode w = some (.rndVxByte (fieldX w) (fieldKK w))) ∨
    (fieldH w = 0xD ∧ decode w = some (.drwVxVyNibble (fieldX w) (fieldY w) (fieldN w))) ∨
    (fieldH w = 0xE ∧ decode w = decodeE w) ∨
    (fieldH w = 0xF ∧ decode w = decodeF w) := by
  have nibble : ∀ h : BitVec 4, h = 0x0 ∨ h = 0x1 ∨ h = 0x2 ∨ h = 0x3 ∨ h = 0x4 ∨ h = 0x5 ∨ h = 0x6 ∨ h = 0x7 ∨
      h = 0x8 ∨ h = 0x9 ∨ h = 0xA ∨ h = 0xB ∨ h = 0xC ∨ h = 0xD ∨ h = 0xE ∨ h = 0xF := by decide
  rcases nibble (fieldH w) with h | h | h | h | h | h | h | h | h | h | h | h | h | h | h | h <;> simp [decode, h]

/-! ## The words of the remaining major opcodes (R68, R69) -/

theorem decode_1nnn (nnn : BitVec 12) : decode (0x1#4 ++ nnn) = some (.jpAddr nnn) := by
  simp [decode, fieldH_nnn, fieldNNN_nnn]

theorem decode_2nnn (nnn : BitVec 12) : decode (0x2#4 ++ nnn) = some (.callAddr nnn) := by
  simp [decode, fieldH_nnn, fieldNNN_nnn]

theorem decode_7xkk (x : Reg) (kk : Byte) : decode (0x7#4 ++ regBits x ++ kk) = some (.addVxByte x kk) := by
  simp [decode, fieldH_xkk, fieldX_xkk, fieldKK_xkk]

theorem decode_Bnnn (nnn : BitVec 12) : decode (0xB#4 ++ nnn) = some (.jpV0Addr nnn) := by
  simp [decode, fieldH_nnn, fieldNNN_nnn]

theorem decode_Cxkk (x : Reg) (kk : Byte) : decode (0xC#4 ++ regBits x ++ kk) = some (.rndVxByte x kk) := by
  simp [decode, fieldH_xkk, fieldX_xkk, fieldKK_xkk]

theorem decode_Dxyn (x y : Reg) (n : BitVec 4) :
    decode (0xD#4 ++ regBits x ++ regBits y ++ n) = some (.drwVxVyNibble x y n) := by
  simp [decode, fieldH_xyn, fieldX_xyn, fieldY_xyn, fieldN_xyn]

/-! The three major opcodes with a sub-decoder. -/

theorem decode_of_fieldH_8 {w : Word} (h : fieldH w = 0x8#4) : decode w = decode8 w := by simp [decode, h]

theorem decode_of_fieldH_E {w : Word} (h : fieldH w = 0xE#4) : decode w = decodeE w := by simp [decode, h]

theorem decode_of_fieldH_F {w : Word} (h : fieldH w = 0xF#4) : decode w = decodeF w := by simp [decode, h]

theorem decode_8xyn (x y : Reg) (n : BitVec 4) :
    decode (0x8#4 ++ regBits x ++ regBits y ++ n) = decode8 (0x8#4 ++ regBits x ++ regBits y ++ n) :=
  decode_of_fieldH_8 (fieldH_xyn _ x y n)

theorem decode_Exkk (x : Reg) (kk : Byte) :
    decode (0xE#4 ++ regBits x ++ kk) = decodeE (0xE#4 ++ regBits x ++ kk) :=
  decode_of_fieldH_E (fieldH_xkk _ x kk)

theorem decode_Fxkk (x : Reg) (kk : Byte) :
    decode (0xF#4 ++ regBits x ++ kk) = decodeF (0xF#4 ++ regBits x ++ kk) :=
  decode_of_fieldH_F (fieldH_xkk _ x kk)

/-! ## Decoding after encoding -/

/-- Settles O1: by the format of each instruction; the forms refined by N or KK run through their sub-decoder. -/
theorem decodeInvertsEncode : Obligations.DecodeInvertsEncode := by
  intro i
  cases i with
  | cls => decide
  | ret => decide
  | jpAddr nnn => exact decode_1nnn nnn
  | callAddr nnn => exact decode_2nnn nnn
  | seVxByte x kk => exact decode_3xkk x kk
  | sneVxByte x kk => exact decode_4xkk x kk
  | seVxVy x y => exact decode_5xyn x y 0
  | ldVxByte x kk => exact decode_6xkk x kk
  | addVxByte x kk => exact decode_7xkk x kk
  | sneVxVy x y => exact decode_9xyn x y 0
  | ldIAddr nnn => exact decode_Annn nnn
  | jpV0Addr nnn => exact decode_Bnnn nnn
  | rndVxByte x kk => exact decode_Cxkk x kk
  | drwVxVyNibble x y n => exact decode_Dxyn x y n
  | ldVxVy x y | orVxVy x y | andVxVy x y | xorVxVy x y | addVxVy x y | subVxVy x y | shrVxVy x y | subnVxVy x y
  | shlVxVy x y =>
    rw [encode, decode_8xyn]
    simp [decode8, fieldN_xyn, fieldX_xyn, fieldY_xyn]
  | skpVx x | sknpVx x =>
    rw [encode, decode_Exkk]
    simp [decodeE, fieldKK_xkk, fieldX_xkk]
  | ldVxDT x | ldVxK x | ldDTVx x | ldSTVx x | addIVx x | ldFVx x | ldBVx x | ldMemVx x | ldVxMem x =>
    rw [encode, decode_Fxkk]
    simp [decodeF, fieldKK_xkk, fieldX_xkk]

/-! ## A word put together again from its own fields -/

theorem word_of_fieldH_nnn {w : Word} {h : BitVec 4} (hw : fieldH w = h) : h ++ fieldNNN w = w := by
  subst hw
  apply word_ext
  rw [toNat_word_nnn, toNat_fieldH, toNat_fieldNNN]
  omega

theorem word_of_fieldH_xkk {w : Word} {h : BitVec 4} (hw : fieldH w = h) : h ++ regBits (fieldX w) ++ fieldKK w = w := by
  subst hw
  apply word_ext
  rw [toNat_word_xkk, toNat_fieldH, val_fieldX, toNat_fieldKK]
  omega

theorem word_of_fieldH_xyn {w : Word} {h : BitVec 4} (hw : fieldH w = h) :
    h ++ regBits (fieldX w) ++ regBits (fieldY w) ++ fieldN w = w := by
  subst hw
  apply word_ext
  rw [toNat_word_xyn, toNat_fieldH, val_fieldX, val_fieldY, toNat_fieldN]
  omega

/-- The word of a form that KK refines. -/
theorem word_of_fieldH_x_fieldKK {w : Word} {h : BitVec 4} {kk : Byte} (hw : fieldH w = h) (hkk : fieldKK w = kk) :
    h ++ regBits (fieldX w) ++ kk = w := hkk ▸ word_of_fieldH_xkk hw

/-- The word of a form that N refines. -/
theorem word_of_fieldH_xy_fieldN {w : Word} {h n : BitVec 4} (hw : fieldH w = h) (hn : fieldN w = n) :
    h ++ regBits (fieldX w) ++ regBits (fieldY w) ++ n = w := hn ▸ word_of_fieldH_xyn hw

/-! ## Encoding after decoding -/

theorem encode_of_decode0 {w : Word} {i : Instr} : decode0 w = some i → encode i = w := by
  fun_cases decode0 w <;> rintro ⟨⟩
  case case1 h => exact h.symm
  case case2 h => exact h.symm

theorem encode_of_decode8 {w : Word} {i : Instr} (hw : fieldH w = 0x8) : decode8 w = some i → encode i = w := by
  fun_cases decode8 w <;> rintro ⟨⟩
  all_goals exact word_of_fieldH_xy_fieldN hw ‹_›

theorem encode_of_decodeE {w : Word} {i : Instr} (hw : fieldH w = 0xE) : decodeE w = some i → encode i = w := by
  fun_cases decodeE w <;> rintro ⟨⟩
  all_goals exact word_of_fieldH_x_fieldKK hw ‹_›

theorem encode_of_decodeF {w : Word} {i : Instr} (hw : fieldH w = 0xF) : decodeF w = some i → encode i = w := by
  fun_cases decodeF w <;> rintro ⟨⟩
  all_goals exact word_of_fieldH_x_fieldKK hw ‹_›

/-- Settles O2: in each case of `decode_cases` the fields the decoder read make the word again. -/
theorem decodedWordHasNoFreeBits : Obligations.DecodedWordHasNoFreeBits := by
  intro w i hd
  rcases decode_cases w with ⟨h, e⟩ | ⟨h, e⟩ | ⟨h, e⟩ | ⟨h, e⟩ | ⟨h, e⟩ | ⟨h, e⟩ | ⟨h, e⟩ | ⟨h, e⟩ | ⟨h, e⟩ | ⟨h, e⟩ |
    ⟨h, e⟩ | ⟨h, e⟩ | ⟨h, e⟩ | ⟨h, e⟩ | ⟨h, e⟩ | ⟨h, e⟩ <;> rw [e] at hd
  · exact encode_of_decode0 hd
  · cases hd; exact word_of_fieldH_nnn h
  · cases hd; exact word_of_fieldH_nnn h
  · cases hd; exact word_of_fieldH_xkk h
  · cases hd; exact word_of_fieldH_xkk h
  · obtain ⟨hn, ⟨⟩⟩ := Option.ite_none_right_eq_some.mp hd
    exact word_of_fieldH_xy_fieldN h hn
  · cases hd; exact word_of_fieldH_xkk h
  · cases hd; exact word_of_fieldH_xkk h
  · exact encode_of_decode8 h hd
  · obtain ⟨hn, ⟨⟩⟩ := Option.ite_none_right_eq_some.mp hd
    exact word_of_fieldH_xy_fieldN h hn
  · cases hd; exact word_of_fieldH_nnn h
  · cases hd; exact word_of_fieldH_nnn h
  · cases hd; exact word_of_fieldH_xkk h
  · cases hd; exact word_of_fieldH_xyn h
  · exact encode_of_decodeE h hd
  · exact encode_of_decodeF h hd

theorem decode_eq_some_iff (w : Word) (i : Instr) : decode w = some i ↔ encode i = w :=
  ⟨decodedWordHasNoFreeBits w i, fun h => h ▸ decodeInvertsEncode i⟩

/-! ## The rows of the opcode table as the fields they compare (R70, R78) -/

theorem and_F000 (w : Word) : w &&& 0xF000 = fieldH w ++ 0x000#12 := by
  have h : (fieldH w ++ fieldNNN w) &&& (0xF#4 ++ 0x000#12) = fieldH w ++ 0x000#12 := by
    rw [BitVec.and_append, BitVec.and_zero]
    congr 1
    exact BitVec.and_allOnes
  rwa [word_of_fieldH_nnn rfl] at h

theorem and_F00F (w : Word) : w &&& 0xF00F = fieldH w ++ regBits 0 ++ regBits 0 ++ fieldN w := by
  have h : (fieldH w ++ regBits (fieldX w) ++ regBits (fieldY w) ++ fieldN w) &&&
      (0xF#4 ++ 0x0#4 ++ 0x0#4 ++ 0xF#4) = fieldH w ++ 0x0#4 ++ 0x0#4 ++ fieldN w := by
    simp only [BitVec.and_append, BitVec.and_zero]
    congr 1
    · congr 2
      exact BitVec.and_allOnes
    · exact BitVec.and_allOnes
  rwa [word_of_fieldH_xyn rfl] at h

theorem and_F0FF (w : Word) : w &&& 0xF0FF = fieldH w ++ regBits 0 ++ fieldKK w := by
  have h : (fieldH w ++ regBits (fieldX w) ++ fieldKK w) &&& (0xF#4 ++ 0x0#4 ++ 0xFF#8) =
      fieldH w ++ 0x0#4 ++ fieldKK w := by
    simp only [BitVec.and_append, BitVec.and_zero]
    congr 1
    · congr 1
      exact BitVec.and_allOnes
    · exact BitVec.and_allOnes
  rwa [word_of_fieldH_xkk rfl] at h

/-- The row of a form that the major opcode alone names. -/
def majorRow (h : BitVec 4) : OpcodeRow := ⟨0xF000, h ++ 0x000#12⟩

/-- The row of a form that N refines. -/
def nibbleRow (f : BitVec 4 × BitVec 4) : OpcodeRow := ⟨0xF00F, f.1 ++ regBits 0 ++ regBits 0 ++ f.2⟩

/-- The row of a form that KK refines. -/
def byteRow (f : BitVec 4 × Byte) : OpcodeRow := ⟨0xF0FF, f.1 ++ regBits 0 ++ f.2⟩

/-- The row of a fixed word. -/
def wordRow (w : Word) : OpcodeRow := ⟨0xFFFF, w⟩

theorem majorRow_accepts (h : BitVec 4) (w : Word) : (majorRow h).accepts w = decide (fieldH w = h) := by
  rw [OpcodeRow.accepts, majorRow, and_F000]
  congr 1
  exact propext (BitVec.append_left_inj 0x000#12)

theorem nibbleRow_accepts (f : BitVec 4 × BitVec 4) (w : Word) :
    (nibbleRow f).accepts w = decide ((fieldH w, fieldN w) = f) := by
  rw [OpcodeRow.accepts, nibbleRow, and_F00F]
  congr 1
  refine propext ⟨fun e => Prod.ext ?_ ?_, fun e => by rw [← e]⟩
  · simpa only [fieldH_xyn] using congrArg fieldH e
  · simpa only [fieldN_xyn] using congrArg fieldN e

theorem byteRow_accepts (f : BitVec 4 × Byte) (w : Word) :
    (byteRow f).accepts w = decide ((fieldH w, fieldKK w) = f) := by
  rw [OpcodeRow.accepts, byteRow, and_F0FF]
  congr 1
  refine propext ⟨fun e => Prod.ext ?_ ?_, fun e => by rw [← e]⟩
  · simpa only [fieldH_xkk] using congrArg fieldH e
  · simpa only [fieldKK_xkk] using congrArg fieldKK e

theorem wordRow_accepts (b w : Word) : (wordRow b).accepts w = decide (w = b) := by
  rw [OpcodeRow.accepts, wordRow]
  congr 2
  exact BitVec.and_allOnes

/-- The major opcodes that name a form alone. -/
def majorForms : List (BitVec 4) := [0x1, 0x2, 0x3, 0x4, 0x6, 0x7, 0xA, 0xB, 0xC, 0xD]

/-- The forms that N refines. -/
def nibbleForms : List (BitVec 4 × BitVec 4) :=
  [(0x5, 0x0), (0x8, 0x0), (0x8, 0x1), (0x8, 0x2), (0x8, 0x3), (0x8, 0x4), (0x8, 0x5), (0x8, 0x6), (0x8, 0x7),
    (0x8, 0xE), (0x9, 0x0)]

/-- The forms that KK refines. -/
def byteForms : List (BitVec 4 × Byte) :=
  [(0xE, 0x9E), (0xE, 0xA1), (0xF, 0x07), (0xF, 0x0A), (0xF, 0x15), (0xF, 0x18), (0xF, 0x1E), (0xF, 0x29), (0xF, 0x33),
    (0xF, 0x55), (0xF, 0x65)]

/-- The fixed words. -/
def fixedForms : List Word := [0x00E0, 0x00EE]

/-- The 34 rows, form by form. -/
theorem opcodeRows_eq :
    opcodeRows = majorForms.map majorRow ++ nibbleForms.map nibbleRow ++
      (fixedForms.map wordRow ++ byteForms.map byteRow) := by decide

/-- How many rows accept a word, from the fields the rows compare. -/
theorem acceptingRows_length (w : Word) :
    (opcodeRows.filter fun r => r.accepts w).length =
      (if fieldH w ∈ majorForms then 1 else 0) + (if (fieldH w, fieldN w) ∈ nibbleForms then 1 else 0) +
        ((if w ∈ fixedForms then 1 else 0) + if (fieldH w, fieldKK w) ∈ byteForms then 1 else 0) := by
  rw [← List.Nodup.count (show majorForms.Nodup by decide), ← List.Nodup.count (show nibbleForms.Nodup by decide),
    ← List.Nodup.count (show fixedForms.Nodup by decide), ← List.Nodup.count (show byteForms.Nodup by decide),
    ← List.countP_eq_length_filter, opcodeRows_eq]
  simp only [List.countP_append, List.countP_map, Function.comp_def, majorRow_accepts, nibbleRow_accepts,
    wordRow_accepts, byteRow_accepts, List.count, eq_comm, beq_eq_decide]

/-! ## Which words the sub-decoders refuse -/

/-- A chain of tests answers none where its first test fails and the rest answers none. -/
theorem ite_some_eq_none_iff {α : Type} {c : Prop} [Decidable c] {a : α} {b : Option α} :
    (if c then some a else b) = none ↔ ¬ c ∧ b = none := by
  split <;> simp [*]

theorem decode0_eq_none_iff (w : Word) : decode0 w = none ↔ w ∉ fixedForms := by
  simp [decode0, ite_some_eq_none_iff, fixedForms]

theorem decode8_eq_none_iff (w : Word) : decode8 w = none ↔ (0x8, fieldN w) ∉ nibbleForms := by
  simp [decode8, ite_some_eq_none_iff, nibbleForms]

theorem decodeE_eq_none_iff (w : Word) : decodeE w = none ↔ (0xE, fieldKK w) ∉ byteForms := by
  simp [decodeE, ite_some_eq_none_iff, byteForms]

theorem decodeF_eq_none_iff (w : Word) : decodeF w = none ↔ (0xF, fieldKK w) ∉ byteForms := by
  simp [decodeF, ite_some_eq_none_iff, byteForms]

theorem fieldH_of_mem_fixedForms {w : Word} (h : w ∈ fixedForms) : fieldH w = 0x0 := by
  obtain rfl | rfl : w = 0x00E0 ∨ w = 0x00EE := by simpa [fixedForms] using h
  · decide
  · decide

/-- Settles O3: with the major opcode known, at most one list of forms is left to look in, and it is the one whose
sub-decoder tests the same fields. -/
theorem oneRowAcceptsEachValidWord : Obligations.OneRowAcceptsEachValidWord := by
  intro w
  have fixed : fieldH w ≠ 0x0 → w ∉ fixedForms := mt fieldH_of_mem_fixedForms
  rw [acceptingRows_length]
  rcases decode_cases w with ⟨h, e⟩ | ⟨h, e⟩ | ⟨h, e⟩ | ⟨h, e⟩ | ⟨h, e⟩ | ⟨h, e⟩ | ⟨h, e⟩ | ⟨h, e⟩ | ⟨h, e⟩ | ⟨h, e⟩ |
    ⟨h, e⟩ | ⟨h, e⟩ | ⟨h, e⟩ | ⟨h, e⟩ | ⟨h, e⟩ | ⟨h, e⟩ <;>
    simp only [e, h, Option.isSome_iff_ne_none, ne_eq, decode0_eq_none_iff, decode8_eq_none_iff, decodeE_eq_none_iff,
      decodeF_eq_none_iff, not_not]
  all_goals simp [majorForms, nibbleForms, byteForms, h, fixed]

/-! ## The invalid words (R73) -/

theorem fieldN_eq_zero_iff (w : Word) : fieldN w = 0#4 ↔ w.toNat % 16 = 0 := by
  simp [BitVec.toNat_eq, toNat_fieldN]

theorem not_mem_fixedForms_iff (w : Word) : w ∉ fixedForms ↔ w.toNat ≠ 0x00E0 ∧ w.toNat ≠ 0x00EE := by
  simp [fixedForms, BitVec.toNat_eq]

theorem not_mem_nibbleForms_8_iff (w : Word) :
    (0x8, fieldN w) ∉ nibbleForms ↔ w.toNat % 16 ∈ [0x8, 0x9, 0xA, 0xB, 0xC, 0xD, 0xF] := by
  have unlisted : ∀ n : BitVec 4, (0x8, n) ∉ nibbleForms ↔ n.toNat ∈ [0x8, 0x9, 0xA, 0xB, 0xC, 0xD, 0xF] := by decide
  rw [unlisted, toNat_fieldN]

theorem not_mem_byteForms_E_iff (w : Word) : (0xE, fieldKK w) ∉ byteForms ↔ w.toNat % 256 ∉ [0x9E, 0xA1] := by
  rw [← toNat_fieldKK]
  simp [byteForms, BitVec.toNat_eq]

theorem not_mem_byteForms_F_iff (w : Word) :
    (0xF, fieldKK w) ∉ byteForms ↔ w.toNat % 256 ∉ [0x07, 0x0A, 0x15, 0x18, 0x1E, 0x29, 0x33, 0x55, 0x65] := by
  rw [← toNat_fieldKK]
  simp [byteForms, BitVec.toNat_eq]

/-- Settles O4: each case of `decode_cases` leaves one group, which is where its sub-decoder answers none. -/
theorem invalidWordsAreTheListedGroups : Obligations.InvalidWordsAreTheListedGroups := by
  intro w
  rw [← not_mem_fixedForms_iff, ← not_mem_nibbleForms_8_iff, ← not_mem_byteForms_E_iff, ← not_mem_byteForms_F_iff,
    ← toNat_fieldH]
  rcases decode_cases w with ⟨h, e⟩ | ⟨h, e⟩ | ⟨h, e⟩ | ⟨h, e⟩ | ⟨h, e⟩ | ⟨h, e⟩ | ⟨h, e⟩ | ⟨h, e⟩ | ⟨h, e⟩ | ⟨h, e⟩ |
    ⟨h, e⟩ | ⟨h, e⟩ | ⟨h, e⟩ | ⟨h, e⟩ | ⟨h, e⟩ | ⟨h, e⟩ <;> rw [e, h]
  all_goals simp [decode0_eq_none_iff, decode8_eq_none_iff, decodeE_eq_none_iff, decodeF_eq_none_iff, fieldN_eq_zero_iff]

/-- Settles O5: the decoder run on the twelve words. -/
theorem wordsOfTheSpecDecode : Obligations.WordsOfTheSpecDecode := by
  unfold Obligations.WordsOfTheSpecDecode
  decide

end Sys2Proof
end

section
/-! How an instruction ends, and its frame (10_state.md sections 2 to 10): every meaning ends the step, and the state it
ends with has every field not listed in `mayChange`. -/

namespace Sys2Proof.Safety

open Sys2Proof.Machine

/-- `t` has every field of `s` that is not listed: the frame `KeepsAllBut` before it is read register by register and
byte by byte. The canonical form of memory is a property of the field, which `KeepsAllBut` does not see. -/
structure KeepsFields (changed : List Part) (s t : State) : Prop where
  params : t.params = s.params
  v : .v ∉ changed → t.v = s.v
  i : .i ∉ changed → t.i = s.i
  pc : .pc ∉ changed → t.pc = s.pc
  stack : .stack ∉ changed → t.stack = s.stack
  sp : .sp ∉ changed → t.sp = s.sp
  dt : .dt ∉ changed → t.dt = s.dt
  st : .st ∉ changed → t.st = s.st
  fb : .fb ∉ changed → t.fb = s.fb
  keys : .keys ∉ changed → t.keys = s.keys
  aw : .aw ∉ changed → t.aw = s.aw
  seenKeys : .seenKeys ∉ changed → t.seenKeys = s.seenKeys
  mem : .mem ∉ changed → t.mem = s.mem
  draws : .draws ∉ changed → t.draws = s.draws

theorem KeepsFields.keepsAllBut {changed : List Part} {s t : State} (h : KeepsFields changed s t) :
    KeepsAllBut changed s t :=
  KeepsAllBut.of_fields h.params h.v h.i h.pc h.stack h.sp h.dt h.st h.fb h.keys h.aw h.seenKeys h.mem h.draws

/-- The outcome ends the step with a result, in a state that keeps every field not listed. -/
def EndsWithin (changed : List Part) (s : State) (o : Host.Outcome State Fault Refusal) : Prop :=
  ∃ (r : StepResult) (u : State), o = endStep r u ∧ KeepsFields changed s u

theorem EndsWithin.executed {changed : List Part} {s u : State} (h : KeepsFields changed s u) :
    EndsWithin changed s (executed u) := ⟨_, u, rfl, h⟩

theorem EndsWithin.awaiting {changed : List Part} {s u : State} (h : KeepsFields changed s u) :
    EndsWithin changed s (awaiting u) := ⟨_, u, rfl, h⟩

theorem EndsWithin.raise {changed : List Part} {s u : State} {e : Fault} (h : KeepsFields changed s u) :
    EndsWithin changed s (raise e u) := ⟨_, u, rfl, h⟩

/-- A failed range check changes nothing (40_step_cycle.md R86). -/
theorem EndsWithin.checkRange {changed : List Part} {first count : Nat} {s : State}
    {go : Host.Outcome State Fault Refusal} (h : EndsWithin changed s go) :
    EndsWithin changed s (checkRange first count s go) := by
  obtain ⟨-, -, hraise⟩ | ⟨-, hgo⟩ := checkRange_cases first count s go
  · rw [hraise]; exact .raise (by constructor <;> simp)
  · rwa [hgo]

/-- The result a step ends with is no part of the state. -/
theorem EndsWithin.keepsFields {changed : List Part} {s t : State} {o : Host.Outcome State Fault Refusal}
    (h : EndsWithin changed s o) (ht : o = .next t) : KeepsFields changed s t := by
  obtain ⟨r, u, rfl, hu⟩ := h
  cases ht
  exact ⟨hu.params, hu.v, hu.i, hu.pc, hu.stack, hu.sp, hu.dt, hu.st, hu.fb, hu.keys, hu.aw, hu.seenKeys, hu.mem,
    hu.draws⟩

theorem EndsWithin.exists_next {changed : List Part} {s : State} {o : Host.Outcome State Fault Refusal}
    (h : EndsWithin changed s o) : ∃ t, o = .next t ∧ t.lastResult ≠ none := by
  obtain ⟨r, u, rfl, -⟩ := h
  exact ⟨_, endStep_eq r u, nofun⟩

end Sys2Proof.Safety

namespace Sys2Proof.Machine

open Sys2Proof.Safety

/-! ## The meanings that test something before they act -/

/-- Everything RET can do (41_control_flow.md R94). -/
theorem exec_ret_cases (s : State) :
    (s.sp.val = 0 ∧ exec .ret s = raise .stackUnderflow s) ∨
      (∃ h : s.sp.val - 1 < 16, 0 < s.sp.val ∧
        exec .ret s = executed (({ s with sp := ⟨s.sp.val - 1, Nat.lt_succ_of_lt h⟩ } : State).writePC
          s.stack[s.sp.val - 1].toNat)) := by
  have hexec : exec .ret s = execRet s := rfl
  obtain ⟨h0, hp⟩ | ⟨h, hp, hpos⟩ := pop_cases s
  · exact .inl ⟨h0, by rw [hexec, execRet, hp]⟩
  · exact .inr ⟨h, hpos, by rw [hexec, execRet, hp]⟩

/-- Everything CALL can do (41_control_flow.md R96). -/
theorem exec_callAddr_cases (nnn : BitVec 12) (s : State) :
    (s.sp.val = 16 ∧ exec (.callAddr nnn) s = raise .stackOverflow s) ∨
      (∃ h : s.sp.val < 16,
        exec (.callAddr nnn) s = executed (({ s with
          stack := s.stack.set s.sp.val s.pc, sp := ⟨s.sp.val + 1, Nat.succ_lt_succ h⟩ } : State).writePC
            nnn.toNat)) := by
  have hexec : exec (.callAddr nnn) s = execCallAddr nnn s := rfl
  obtain ⟨h16, hp⟩ | ⟨h, hp⟩ := push_cases s s.pc
  · exact .inl ⟨h16, by rw [hexec, execCallAddr, hp]⟩
  · exact .inr ⟨h, by rw [hexec, execCallAddr, hp, addrOperand]⟩

theorem exec_drwVxVyNibble (x y : Reg) (n : BitVec 4) (s : State) :
    exec (.drwVxVyNibble x y n) s = checkRange s.i.toNat n.toNat s
      (executed ({ s with fb := (spriteResult x y n s).1 }.writeV Reg.vf (flagByte (spriteResult x y n s).2))) := rfl

theorem exec_ldBVx (x : Reg) (s : State) :
    exec (.ldBVx x) s = checkRange s.i.toNat 3 s (executed (s.writeBytes s.i.toNat (bcdDigits (s.readV x)))) := rfl

theorem exec_ldMemVx (x : Reg) (s : State) :
    exec (.ldMemVx x) s = checkRange s.i.toNat (x.val + 1) s
      (executed ((s.writeBytes s.i.toNat (s.regsUpTo x)).afterBlock x)) := rfl

theorem exec_ldVxMem (x : Reg) (s : State) :
    exec (.ldVxMem x) s = checkRange s.i.toNat (x.val + 1) s
      (executed ({ s with v := RegFile.load s.v 0 (s.readBytes s.i.toNat (x.val + 1)) }.afterBlock x)) := rfl

theorem exec_ldVxK (x : Reg) (s : State) :
    exec (.ldVxK x) s = awaiting ({ s with aw := some x } : State).lookAtKeys := rfl

/-! ## The frame of all 34 instructions -/

/-- Every instruction ends the step within the parts it may change. -/
theorem exec_endsWithin (i : Instr) (s : State) : EndsWithin (mayChange i) s (exec i s) := by
  cases i with
  | ret =>
    obtain ⟨-, h⟩ | ⟨_, -, h⟩ := exec_ret_cases s <;> rw [h]
    · exact .raise (by constructor <;> simp [mayChange])
    · exact .executed (by constructor <;> simp [mayChange])
  | callAddr nnn =>
    obtain ⟨-, h⟩ | ⟨_, h⟩ := exec_callAddr_cases nnn s <;> rw [h]
    · exact .raise (by constructor <;> simp [mayChange])
    · exact .executed (by constructor <;> simp [mayChange])
  | drwVxVyNibble x y n => exact .checkRange (.executed (by constructor <;> simp [mayChange]))
  | ldBVx x => exact .checkRange (.executed (by constructor <;> simp [mayChange]))
  | ldMemVx x => exact .checkRange (.executed (by constructor <;> simp [mayChange]))
  | ldVxMem x => exact .checkRange (.executed (by constructor <;> simp [mayChange]))
  | ldVxK x => exact .awaiting (by constructor <;> simp [mayChange])
  | _ => exact .executed (by constructor <;> simp [mayChange])

theorem exec_keepsFields {i : Instr} {s t : State} (h : exec i s = .next t) : KeepsFields (mayChange i) s t :=
  (exec_endsWithin i s).keepsFields h

/-- Settles O17: `exec_endsWithin` read through the registers, bytes and pixels. -/
theorem instructionsChangeOnlyTheirParts : Obligations.InstructionsChangeOnlyTheirParts :=
  fun _ _ _ h => (exec_keepsFields h).keepsAllBut

end Sys2Proof.Machine
end

section
/-! The invariant of every reachable state (10_state.md section 13): each of its clauses is kept by every instruction, so
by every step, by every host operation and along every run. -/

namespace Sys2Proof.Machine

open Sys2Proof.Safety

/-! ## The state a completed meaning answers -/

theorem eq_of_executed {u t : State} (h : executed u = .next t) :
    t = { u with lastResult := some (.outcome .executed) } := (Host.Outcome.next.inj h).symm

theorem eq_of_raise {e : Fault} {u t : State} (h : raise e u = .next t) : t = { u with lastResult := some (.error e) } :=
  (Host.Outcome.next.inj h).symm

/-- Everything an answer after a range check can be (40_step_cycle.md R86). -/
theorem of_checkRange {first count : Nat} {s t : State} {go : Host.Outcome State Fault Refusal}
    (h : checkRange first count s go = .next t) :
    (0 < count ∧ first + count > 0x1000 ∧
        t = { s with lastResult := some (.error (.addressOutOfRange 0x1000)) }) ∨
      ((count = 0 ∨ first + count ≤ 0x1000) ∧ go = .next t) := by
  obtain ⟨h0, hc, hr⟩ | ⟨hc, hgo⟩ := checkRange_cases first count s go
  · exact .inl ⟨h0, hc, eq_of_raise (hr ▸ h)⟩
  · exact .inr ⟨hc, hgo ▸ h⟩

/-! ## Bounds of the updates -/

theorem State.skipIf_pc_bound {s : State} (h : s.pc.toNat ≤ 0xFFF) (c : Bool) : (s.skipIf c).pc.toNat ≤ 0xFFF := by
  cases c
  · exact h
  · exact s.writePC_bound _

theorem State.afterBlock_i_bound {s : State} (h : s.i.toNat ≤ 0xFFF) (x : Reg) : (s.afterBlock x).i.toNat ≤ 0xFFF := by
  unfold State.afterBlock
  split
  · exact s.writeI_bound _
  · exact h

/-! ## Each clause is kept by every instruction -/

theorem exec_pc_bound {i : Instr} {s t : State} (hs : s.pc.toNat ≤ 0xFFF) (h : exec i s = .next t) :
    t.pc.toNat ≤ 0xFFF := by
  by_cases hpc : .pc ∈ mayChange i
  case neg => rw [(exec_keepsFields h).pc hpc]; exact hs
  case pos =>
    cases i with
    | ret =>
      obtain ⟨-, hexec⟩ | ⟨_, -, hexec⟩ := exec_ret_cases s <;> rw [hexec] at h
      · rw [eq_of_raise h]; exact hs
      · rw [eq_of_executed h]; exact s.writePC_bound _
    | callAddr nnn =>
      obtain ⟨-, hexec⟩ | ⟨_, hexec⟩ := exec_callAddr_cases nnn s <;> rw [hexec] at h
      · rw [eq_of_raise h]; exact hs
      · rw [eq_of_executed h]; exact s.writePC_bound _
    | jpAddr _ | jpV0Addr _ => rw [eq_of_executed h]; exact s.writePC_bound _
    | seVxByte _ _ | sneVxByte _ _ | seVxVy _ _ | sneVxVy _ _ | skpVx _ | sknpVx _ =>
      rw [eq_of_executed h]; exact State.skipIf_pc_bound hs _
    | _ => simp [mayChange] at hpc

theorem exec_i_bound {i : Instr} {s t : State} (hs : s.i.toNat ≤ 0xFFF) (h : exec i s = .next t) :
    t.i.toNat ≤ 0xFFF := by
  by_cases hi : .i ∈ mayChange i
  case neg => rw [(exec_keepsFields h).i hi]; exact hs
  case pos =>
    cases i with
    | ldIAddr _ | addIVx _ | ldFVx _ => rw [eq_of_executed h]; exact s.writeI_bound _
    | ldMemVx x =>
      obtain ⟨-, -, rfl⟩ | ⟨-, hgo⟩ := of_checkRange h
      · exact hs
      · rw [eq_of_executed hgo]; apply State.afterBlock_i_bound; simpa using hs
    | ldVxMem x =>
      obtain ⟨-, -, rfl⟩ | ⟨-, hgo⟩ := of_checkRange h
      · exact hs
      · rw [eq_of_executed hgo]; apply State.afterBlock_i_bound; exact hs
    | _ => simp [mayChange] at hi

/-- The slot a CALL pushes is the bounded PC (41_control_flow.md R94, R96). -/
theorem exec_stack_bound {i : Instr} {s t : State} (hpc : s.pc.toNat ≤ 0xFFF)
    (hs : ∀ j : Fin 16, s.stack[j.val].toNat ≤ 0xFFF) (h : exec i s = .next t) (j : Fin 16) :
    t.stack[j.val].toNat ≤ 0xFFF := by
  by_cases hst : .stack ∈ mayChange i
  case neg => simpa only [(exec_keepsFields h).stack hst] using hs j
  case pos =>
    cases i with
    | callAddr nnn =>
      obtain ⟨-, hexec⟩ | ⟨_, hexec⟩ := exec_callAddr_cases nnn s <;> rw [hexec] at h
      · rw [eq_of_raise h]; exact hs j
      · rw [eq_of_executed h]
        simp only [State.writePC_stack, Vector.getElem_set]
        split
        · exact hpc
        · exact hs j
    | _ => simp [mayChange] at hst

/-- The two stores write inside the range they checked. -/
theorem exec_mem_wf {i : Instr} {s t : State} (hs : Memory.wf s.params s.mem = true) (h : exec i s = .next t) :
    Memory.wf t.params t.mem = true := by
  have hframe := exec_keepsFields h
  by_cases hm : .mem ∈ mayChange i
  case neg => rw [hframe.params, hframe.mem hm]; exact hs
  case pos =>
    rw [hframe.params]
    cases i with
    | ldBVx x =>
      obtain ⟨-, -, rfl⟩ | ⟨hc, hgo⟩ := of_checkRange h
      · exact hs
      · rw [eq_of_executed hgo]
        exact s.writeBytes_wf _ _ (hc.resolve_left (by decide)) hs
    | ldMemVx x =>
      obtain ⟨-, -, rfl⟩ | ⟨hc, hgo⟩ := of_checkRange h
      · exact hs
      · rw [eq_of_executed hgo]
        simp only [State.afterBlock_mem]
        exact s.writeBytes_wf _ _ (by rw [State.regsUpTo_length]; exact hc.resolve_left (by omega)) hs
    | _ => simp [mayChange] at hm

end Sys2Proof.Machine

namespace Sys2Proof.Safety

open Sys2Proof.Machine

/-! ## The invariant -/

theorem exec_stateInv {i : Instr} {s t : State} (hs : StateInv s) (h : exec i s = .next t) : StateInv t := by
  obtain ⟨hmem, hpc, hi, hstack⟩ := hs
  exact ⟨exec_mem_wf hmem h, exec_pc_bound hpc h, exec_i_bound hi h, exec_stack_bound hpc hstack h⟩

/-- The invariant reads these fields only. -/
theorem StateInv.of_fields {s t : State} (hs : StateInv s) (params : t.params = s.params) (mem : t.mem = s.mem)
    (pc : t.pc = s.pc) (i : t.i = s.i) (stack : t.stack = s.stack) : StateInv t := by
  unfold StateInv
  rw [params, mem, pc, i, stack]
  exact hs

theorem StateInv.addTwo {s : State} (hs : StateInv s) : StateInv s.addTwo := by
  obtain ⟨hmem, -, hi, hstack⟩ := hs
  exact ⟨hmem, s.writePC_bound _, hi, hstack⟩

/-- Settles O14: case by case of `step_cases`; a poll, an error and an invalid word touch none of the invariant's fields
but PC, whose advance is bounded. -/
theorem stepKeepsTheInvariant : Obligations.StepKeepsTheInvariant := by
  intro s t hs h
  obtain ⟨x, -, hstep⟩ | ⟨e, -, -, hstep⟩ | ⟨w, -, -, -, hstep⟩ | ⟨w, i, -, -, -, hstep⟩ := step_cases s <;>
    rw [hstep] at h
  · obtain ⟨k, -, hpoll⟩ | ⟨-, hpoll⟩ := keywaitPoll_cases x s <;> rw [hpoll] at h <;> cases h
    · exact hs.of_fields rfl rfl rfl rfl rfl
    · exact hs.of_fields (by simp) (by simp) (by simp) (by simp) (by simp)
  · cases h; exact hs
  · cases h; exact hs.addTwo
  · exact exec_stateInv hs.addTwo h

theorem stateInv_init (p : Config.Params) (n : Nat) : StateInv (State.init p n) :=
  ⟨rfl, by simp [State.init], by simp [State.init], fun j => by simp [State.init]⟩

/-- Settles O15: nothing is listed in memory, and every bounded field is 0. -/
theorem initMeetsTheInvariant : Obligations.InitMeetsTheInvariant := ⟨stateInv_init _ _, stateInv_init⟩

/-- A load that succeeds writes inside memory on the state of init, and its offset bounds PC (R154). -/
theorem hostLoad_stateInv {bytes : List Byte} {offset : Nat} {s t : State} (h : hostLoad bytes offset s = .ok t) :
    StateInv t := by
  obtain ⟨-, hl⟩ | ⟨-, -, hl⟩ | ⟨hoff, hlen, hl⟩ := hostLoad_cases bytes offset s <;> rw [hl] at h <;> cases h
  obtain ⟨hmem, -, hi, hstack⟩ : StateInv (hostInit s) := stateInv_init _ _
  refine ⟨?_, ?_, ?_, ?_⟩
  · simpa using (hostInit s).writeBytes_wf offset bytes hlen hmem
  · exact Nat.le_trans (Nat.mod_le _ _) hoff
  · simpa using hi
  · simpa using hstack

/-- Settles O59: a step by `stepKeepsTheInvariant`, init and load by the state of init; the other operations touch none
of the invariant's fields. -/
theorem hostOperationsKeepTheInvariant : Obligations.HostOperationsKeepTheInvariant := by
  intro op s t r hs h
  cases op with
  | init => cases h; exact stateInv_init _ _
  | load bytes offset =>
    rw [hostOp] at h
    split at h <;> cases h
    · exact hs
    · exact hostLoad_stateInv ‹_›
  | step =>
    rw [hostOp] at h
    split at h <;> cases h
    exact stepKeepsTheInvariant s t hs ‹_›
  | tickTimers => cases h; exact hs
  | setKey k b => cases h; exact hs
  | frameBuffer | soundTimer | snapshot => cases h; exact hs

end Sys2Proof.Safety

namespace Sys2Proof.Machine

open Sys2Proof.Safety

/-! ## Every operation answers a next state -/

theorem keywaitPoll_exists_next (x : Reg) (s : State) : ∃ t, keywaitPoll x s = .next t ∧ t.lastResult ≠ none := by
  obtain ⟨k, -, h⟩ | ⟨-, h⟩ := keywaitPoll_cases x s <;> rw [h]
  · exact ⟨_, executed_eq _, nofun⟩
  · exact ⟨_, awaiting_eq _, nofun⟩

theorem step_exists_next (s : State) : ∃ t, step s = .next t ∧ t.lastResult ≠ none := by
  obtain ⟨x, -, h⟩ | ⟨e, -, -, h⟩ | ⟨w, -, -, -, h⟩ | ⟨w, i, -, -, -, h⟩ := step_cases s <;> rw [h]
  · exact keywaitPoll_exists_next x s
  · exact ⟨_, raise_eq e s, nofun⟩
  · exact ⟨_, invalidOpcode_eq w _, nofun⟩
  · exact (exec_endsWithin i s.addTwo).exists_next

/-- A step of the host answers what the step answers (60_exceptions.md R136). -/
theorem hostOp_step {s t : State} (h : step s = .next t) : hostOp .step s = .next (t, .stepped t.lastResult) := by
  rw [hostOp, h]

theorem hostOp_exists_next (op : HostOp) (s : State) : ∃ t r, hostOp op s = .next (t, r) := by
  cases op with
  | load bytes offset =>
    rw [hostOp]
    split
    · exact ⟨_, _, rfl⟩
    · exact ⟨_, _, rfl⟩
  | step =>
    obtain ⟨t, h, -⟩ := step_exists_next s
    exact ⟨_, _, hostOp_step h⟩
  | _ => exact ⟨_, _, rfl⟩

theorem hostRun_cons {op : HostOp} {s t : State} {r : HostReply} (h : hostOp op s = .next (t, r)) (ops : List HostOp) :
    hostRun (op :: ops) s = hostRun ops t := by
  rw [hostRun, h]

theorem hostRun_exists_next (ops : List HostOp) (s : State) : ∃ t, hostRun ops s = .next t := by
  induction ops generalizing s with
  | nil => exact ⟨s, rfl⟩
  | cons op ops ih =>
    obtain ⟨t, r, h⟩ := hostOp_exists_next op s
    rw [hostRun_cons h]
    exact ih t

/-- Settles O12: every case of a step ends it with a result, and a run of operations goes on from each. -/
theorem noStateHaltsTheCore : Obligations.NoStateHaltsTheCore := ⟨step_exists_next, hostRun_exists_next⟩

/-- What every operation keeps, a run of operations keeps. -/
theorem hostRun_keeps {P : State → Prop} (hop : ∀ op s t r, P s → hostOp op s = .next (t, r) → P t)
    (ops : List HostOp) {s t : State} (hs : P s) (h : hostRun ops s = .next t) : P t := by
  induction ops generalizing s with
  | nil => cases h; exact hs
  | cons op ops ih =>
    obtain ⟨u, r, hu⟩ := hostOp_exists_next op s
    rw [hostRun_cons hu] at h
    exact ih (hop op s u r hs hu) h

/-- Settles O16: init meets the invariant (O15) and every operation keeps it (O59). -/
theorem reachableStatesMeetTheInvariant : Obligations.ReachableStatesMeetTheInvariant :=
  fun p n ops _ h => hostRun_keeps hostOperationsKeepTheInvariant ops (stateInv_init p n) h

end Sys2Proof.Machine
end

section
/-! The step (40_step_cycle.md): one equation per case of `step_cases`, the key-wait poll, and what every step leaves
alone. -/

namespace Sys2Proof.Machine

open Sys2Proof.Safety

/-! ## The cases of a step -/

/-- Settles O7: the state `exec` runs on is `addTwo` written out. -/
theorem stepRunsTheDecodedInstruction : Obligations.StepRunsTheDecodedInstruction :=
  fun _ _ _ ha hf hd => step_of_decode_some ha hf hd

/-- The one case of `step_cases` in which the fetch fails (R81). -/
theorem step_of_fetch_error {s : State} {e : Fault} (ha : s.aw = none) (hf : fetch s = .error e) :
    step s = raise e s := by
  obtain ⟨x, ha', -⟩ | ⟨e', -, hf', hs⟩ | ⟨w, -, hf', -⟩ | ⟨w, i, -, hf', -⟩ := step_cases s
  · simp [ha] at ha'
  · obtain rfl : e = e' := by simpa [hf] using hf'
    exact hs
  · simp [hf] at hf'
  · simp [hf] at hf'

/-- The one case of `step_cases` in which a key wait is pending (R80). -/
theorem step_of_aw_some {s : State} {x : Reg} (ha : s.aw = some x) : step s = keywaitPoll x s := by
  obtain ⟨x', ha', hs⟩ | ⟨e, ha', -⟩ | ⟨w, ha', -⟩ | ⟨w, i, ha', -⟩ := step_cases s
  · obtain rfl : x = x' := by simpa [ha] using ha'
    exact hs
  all_goals simp [ha] at ha'

/-- What a step returns is no part of the state. -/
theorem keepsAllBut_lastResult (s : State) (r : Option StepResult) : KeepsAllBut [] s { s with lastResult := r } := by
  apply KeepsAllBut.of_fields <;> simp

/-- All that a step does which ends with an error in its own state (R86). -/
theorem raise_spec (e : Fault) (s : State) : ∃ t, raise e s = .next t ∧ Raised e t ∧ KeepsAllBut [] s t :=
  ⟨_, raise_eq e s, rfl, keepsAllBut_lastResult s _⟩

/-- Settles O9: the second byte of the fetch lies at 0x1000. -/
theorem fetchAtTheLastByteRaises : Obligations.FetchAtTheLastByteRaises := by
  intro s ha hpc
  have hf : fetch s = .error (.addressOutOfRange 0x1000) := by
    obtain ⟨hlt, -⟩ | ⟨-, hf⟩ | ⟨hgt, -⟩ := fetch_cases s
    · omega
    · exact hf
    · omega
  rw [step_of_fetch_error ha hf]
  exact raise_spec _ s

/-! ## The key-wait poll (R80) -/

/-- A key index fits a byte. -/
theorem toNat_ofNat_reg (k : Reg) : (BitVec.ofNat 8 k.val).toNat = k.val := by
  rw [BitVec.toNat_ofNat]
  exact Nat.mod_eq_of_lt (Nat.lt_trans k.isLt (by decide))

/-- All that a poll does which takes the key `k`. -/
theorem keywaitPoll_of_selectKey_some {s : State} {x k : Reg} (h : selectKey s = some k) :
    ∃ t, keywaitPoll x s = .next t ∧ Executed t ∧ (t.readV x).toNat = k.val ∧
      (∀ y : Reg, y ≠ x → t.readV y = s.readV y) ∧ t.aw = none ∧ KeepsAllBut [.v, .aw] s t := by
  rw [keywaitPoll, h]
  refine ⟨_, executed_eq _, rfl, ?_, fun y hy => s.readV_writeV_ne _ hy, rfl, ?_⟩
  · exact (congrArg BitVec.toNat (s.readV_writeV_self x _)).trans (toNat_ofNat_reg k)
  · apply KeepsAllBut.of_fields <;> simp

/-- Settles O10: the hypotheses say that `k` is the key `selectKey` finds. -/
theorem pollTakesTheSelectedKey : Obligations.PollTakesTheSelectedKey := by
  intro s x k ha hk hlo hhi
  simp only [keyCounts_iff, Bool.not_eq_true] at hk hlo hhi
  rw [step_of_aw_some ha]
  exact keywaitPoll_of_selectKey_some (selectKey_some hk hlo hhi)

/-- All that a wait does by looking at the keys, with the result of the step recorded (R80, R126; log 30). -/
theorem keepsAllBut_lookAtKeys_lastResult (s : State) (r : Option StepResult) :
    KeepsAllBut [.seenKeys] s { s.lookAtKeys with lastResult := r } := by
  apply KeepsAllBut.of_fields <;> simp

theorem State.lookAtKeys_seenKeys_level {s : State} (h : s.params.keyWaitSelect.sense = .level) :
    s.lookAtKeys.seenKeys = s.seenKeys := by rw [State.lookAtKeys_level h]

theorem State.lookAtKeys_seenKeys_edge {s : State} (h : s.params.keyWaitSelect.sense = .edge) :
    s.lookAtKeys.seenKeys = s.keys := by rw [State.lookAtKeys_seenKeys, if_pos h]

/-- Settles O11: with no key that counts the poll only looks at the keys. -/
theorem pollWithoutAKeyChangesNothing : Obligations.PollWithoutAKeyChangesNothing := by
  intro s x ha hnone
  simp only [keyCounts_iff, Bool.not_eq_true] at hnone
  rw [step_of_aw_some ha, keywaitPoll, selectKey_none hnone]
  exact ⟨_, awaiting_eq _, rfl, keepsAllBut_lookAtKeys_lastResult s _, State.lookAtKeys_seenKeys_level,
    State.lookAtKeys_seenKeys_edge⟩

/-! ## The result of the last step is not read (log 2) -/

theorem State.writeBytes_lastResult_update (s : State) (a : Nat) (bs : List Byte) (r : Option StepResult) :
    State.writeBytes { s with lastResult := r } a bs = { s.writeBytes a bs with lastResult := r } := by
  induction bs generalizing s a with
  | nil => rfl
  | cons b bs ih => exact ih (s.writeByte a b) (a + 1)

theorem State.readBytes_lastResult_update (s : State) (a n : Nat) (r : Option StepResult) :
    State.readBytes { s with lastResult := r } a n = s.readBytes a n :=
  State.readBytes_congr (s := s) (t := { s with lastResult := r }) (fun _ => rfl) a n

theorem spriteResult_lastResult_update (x y : Reg) (n : BitVec 4) (s : State) (r : Option StepResult) :
    spriteResult x y n { s with lastResult := r } = spriteResult x y n s :=
  congrArg (drawSprite s.fb _ _) (s.readBytes_lastResult_update _ _ r)

theorem executed_skipIf_lastResult (s : State) (c : Bool) (r : Option StepResult) :
    executed (State.skipIf { s with lastResult := r } c) = executed (s.skipIf c) := by
  cases c <;> rfl

theorem executed_afterLogic_lastResult (s : State) (r : Option StepResult) :
    executed (State.afterLogic { s with lastResult := r }) = executed s.afterLogic := by
  unfold State.afterLogic
  cases s.params.logicVfReset <;> rfl

theorem executed_afterBlock_lastResult (s : State) (x : Reg) (r : Option StepResult) :
    executed (State.afterBlock { s with lastResult := r } x) = executed (s.afterBlock x) := by
  unfold State.afterBlock
  cases s.params.loadstoreIIncrement <;> rfl

theorem awaiting_lookAtKeys_lastResult (s : State) (r : Option StepResult) :
    awaiting (State.lookAtKeys { s with lastResult := r }) = awaiting s.lookAtKeys := by
  unfold State.lookAtKeys
  cases s.params.keyWaitSelect.sense <;> rfl

theorem checkRange_lastResult (first count : Nat) (s : State) (r : Option StepResult)
    {go go' : Host.Outcome State Fault Refusal} (h : go = go') :
    checkRange first count { s with lastResult := r } go = checkRange first count s go' := by
  unfold checkRange
  rw [h]
  rfl

theorem exec_lastResult (i : Instr) (s : State) (r : Option StepResult) :
    exec i { s with lastResult := r } = exec i s := by
  cases i with
  | ret =>
    obtain ⟨h0, h⟩ | ⟨_, hpos, h⟩ := exec_ret_cases s <;>
      obtain ⟨h0', h'⟩ | ⟨_, hpos', h'⟩ := exec_ret_cases { s with lastResult := r } <;> rw [h, h']
    · rfl
    · exact absurd h0 (Nat.ne_of_gt hpos')
    · exact absurd h0' (Nat.ne_of_gt hpos)
    · rfl
  | callAddr nnn =>
    obtain ⟨h16, h⟩ | ⟨hlt, h⟩ := exec_callAddr_cases nnn s <;>
      obtain ⟨h16', h'⟩ | ⟨hlt', h'⟩ := exec_callAddr_cases nnn { s with lastResult := r } <;> rw [h, h']
    · rfl
    · exact absurd h16 (Nat.ne_of_lt hlt')
    · exact absurd h16' (Nat.ne_of_lt hlt)
    · rfl
  | seVxByte _ _ | sneVxByte _ _ | seVxVy _ _ | sneVxVy _ _ | skpVx _ | sknpVx _ =>
    exact executed_skipIf_lastResult s _ r
  | orVxVy x y | andVxVy x y | xorVxVy x y => exact executed_afterLogic_lastResult (s.writeV x _) r
  | drwVxVyNibble x y n =>
    refine checkRange_lastResult _ _ s r ?_
    rw [spriteResult_lastResult_update]
    rfl
  | ldBVx x =>
    refine checkRange_lastResult _ _ s r ?_
    rw [State.writeBytes_lastResult_update]
    rfl
  | ldMemVx x =>
    refine checkRange_lastResult _ _ s r ?_
    rw [State.writeBytes_lastResult_update]
    exact executed_afterBlock_lastResult _ x r
  | ldVxMem x =>
    refine checkRange_lastResult _ _ s r ?_
    rw [State.readBytes_lastResult_update]
    exact executed_afterBlock_lastResult { s with v := _ } x r
  | ldVxK x => exact awaiting_lookAtKeys_lastResult { s with aw := some x } r
  | _ => rfl

theorem keywaitPoll_lastResult (x : Reg) (s : State) (r : Option StepResult) :
    keywaitPoll x { s with lastResult := r } = keywaitPoll x s := by
  have hsel : selectKey { s with lastResult := r } = selectKey s := rfl
  obtain ⟨k, hk, h⟩ | ⟨hk, h⟩ := keywaitPoll_cases x s <;> rw [h, keywaitPoll, hsel, hk]
  · rfl
  · exact awaiting_lookAtKeys_lastResult s r

/-- Settles O13: in each case of `step_cases` the same case holds of the state with another result, and it ends by
recording a new one. -/
theorem stepIgnoresTheLastResult : Obligations.StepIgnoresTheLastResult := by
  intro s r
  obtain ⟨x, ha, h⟩ | ⟨e, ha, hf, h⟩ | ⟨w, ha, hf, hd, h⟩ | ⟨w, i, ha, hf, hd, h⟩ := step_cases s <;> rw [h]
  · exact (step_of_aw_some (s := { s with lastResult := r }) ha).trans (keywaitPoll_lastResult x s r)
  · exact step_of_fetch_error (s := { s with lastResult := r }) ha hf
  · exact step_of_decode_none (s := { s with lastResult := r }) ha hf hd
  · exact (step_of_decode_some (s := { s with lastResult := r }) ha hf hd).trans (exec_lastResult i s.addTwo r)

/-! ## VF (10_state.md R26) -/

theorem flagByte_eq_zero_or_one (c : Bool) : flagByte c = 0 ∨ flagByte c = 1 := by
  cases c
  · exact .inl rfl
  · exact .inr rfl

/-- A completed flag write leaves its flag in VF, the last register written (R27). -/
theorem readV_vf_of_executed_writeV {s t : State} {c : Bool} (h : executed (s.writeV Reg.vf (flagByte c)) = .next t) :
    t.readV Reg.vf = 0 ∨ t.readV Reg.vf = 1 := by
  have hvf : t.readV Reg.vf = flagByte c := by
    rw [eq_of_executed h]
    exact s.readV_writeV_self Reg.vf _
  rw [hvf]
  exact flagByte_eq_zero_or_one c

/-- The registers after a block load (44_index_memory.md R122). -/
theorem readV_loadBlock (s : State) (a : Nat) (x j : Reg) :
    ({ s with v := RegFile.load s.v 0 (s.readBytes a (x.val + 1)) } : State).readV j =
      if j ≤ x then s.readByte (a + j.val) else s.readV j := by
  rw [State.readV, RegFile.load_getElem, State.readBytes_length]
  by_cases h : j ≤ x
  · have hlt : j.val < x.val + 1 := Nat.lt_succ_of_le h
    rw [if_pos ⟨Nat.zero_le _, hlt⟩, if_pos h]
    exact s.readBytes_getD a _ _ hlt
  · have hge : ¬ j.val < x.val + 1 := fun hlt => h (Nat.le_of_lt_succ hlt)
    rw [if_neg fun hj => hge hj.2, if_neg h]
    rfl

theorem readV_afterBlock (s : State) (x j : Reg) : (s.afterBlock x).readV j = s.readV j :=
  State.readV_congr (s.afterBlock_v x) j

/-- An instruction that writes VF as a flag and completes leaves a flag value in it. -/
theorem readV_vf_of_setsFlag {i : Instr} {s t : State} (h : exec i s = .next t) (hflag : setsFlag s i = true)
    (hdone : Executed t) : t.readV Reg.vf = 0 ∨ t.readV Reg.vf = 1 := by
  cases i with
  | addVxVy x y | subVxVy x y | shrVxVy x y | subnVxVy x y | shlVxVy x y => exact readV_vf_of_executed_writeV h
  | drwVxVyNibble x y n =>
    obtain ⟨-, -, rfl⟩ | ⟨-, hgo⟩ := of_checkRange h
    · cases hdone
    · exact readV_vf_of_executed_writeV hgo
  | orVxVy x y | andVxVy x y | xorVxVy x y =>
    left
    rw [eq_of_executed h]
    exact (State.readV_afterLogic _ _).trans (if_pos ⟨hflag, rfl⟩)
  | _ => cases hflag

/-- An instruction that writes no flag and does not name VF leaves it. -/
theorem readV_vf_of_not_setsFlag {i : Instr} {s t : State} (h : exec i s = .next t) (hflag : setsFlag s i = false)
    (hx : writesVfAsVx i = false) : t.readV Reg.vf = s.readV Reg.vf := by
  by_cases hv : .v ∈ mayChange i
  case neg => exact State.readV_congr ((exec_keepsFields h).v hv) _
  case pos =>
    cases i with
    | ldVxByte x _ | addVxByte x _ | ldVxVy x _ | rndVxByte x _ | ldVxDT x =>
      rw [eq_of_executed h]
      exact State.readV_writeV_ne _ _ (Ne.symm (of_decide_eq_false hx))
    | orVxVy x y | andVxVy x y | xorVxVy x y =>
      rw [eq_of_executed h]
      refine (State.readV_afterLogic _ _).trans ((if_neg ?_).trans
        (s.readV_writeV_ne _ (Ne.symm (of_decide_eq_false hx))))
      exact fun hreset => absurd (hreset.1.symm.trans hflag) (by decide)
    | ldVxMem x =>
      have hlt : ¬ Reg.vf ≤ x := not_le.mpr (lt_of_le_of_ne (Fin.le_last x) (of_decide_eq_false hx))
      obtain ⟨-, -, rfl⟩ | ⟨-, hgo⟩ := of_checkRange h
      · rfl
      · rw [eq_of_executed hgo]
        exact (readV_afterBlock _ x _).trans ((readV_loadBlock s s.i.toNat x _).trans (if_neg hlt))
    | addVxVy _ _ | subVxVy _ _ | shrVxVy _ _ | subnVxVy _ _ | shlVxVy _ _ | drwVxVyNibble _ _ _ => cases hflag
    | _ => simp [mayChange] at hv

/-- Settles O19: flag writers by `readV_vf_of_setsFlag`, all others by the frame and the register they write. -/
theorem onlyTheListedInstructionsChangeVF : Obligations.OnlyTheListedInstructionsChangeVF :=
  fun _ _ _ h => ⟨readV_vf_of_setsFlag h, readV_vf_of_not_setsFlag h⟩

/-! ## The keypad and the timers (R37, R39) -/

theorem keys_notMem_mayChange (i : Instr) : .keys ∉ mayChange i := by
  cases i <;> simp [mayChange]

theorem eq_ldDTVx_of_dt_mem {i : Instr} (h : .dt ∈ mayChange i) : ∃ x, i = .ldDTVx x := by
  cases i with
  | ldDTVx x => exact ⟨x, rfl⟩
  | _ => simp [mayChange] at h

theorem eq_ldSTVx_of_st_mem {i : Instr} (h : .st ∈ mayChange i) : ∃ x, i = .ldSTVx x := by
  cases i with
  | ldSTVx x => exact ⟨x, rfl⟩
  | _ => simp [mayChange] at h

/-- A poll moves nothing but the awaited register, the wait and the keys it has seen (R80). -/
theorem keywaitPoll_endsWithin (x : Reg) (s : State) : EndsWithin [.v, .aw, .seenKeys] s (keywaitPoll x s) := by
  obtain ⟨k, -, h⟩ | ⟨-, h⟩ := keywaitPoll_cases x s <;> rw [h]
  · exact .executed (by constructor <;> simp)
  · exact .awaiting (by constructor <;> simp)

/-- Settles O20: only a decoded instruction can change them, and the frame of `exec_keepsFields` names the two. -/
theorem stepsLeaveKeypadAndTimersAlone : Obligations.StepsLeaveKeypadAndTimersAlone := by
  intro s t h
  obtain ⟨x, -, hstep⟩ | ⟨e, -, -, hstep⟩ | ⟨w, -, -, -, hstep⟩ | ⟨w, i, ha, hf, hd, hstep⟩ := step_cases s <;>
    rw [hstep] at h
  · have hframe := (keywaitPoll_endsWithin x s).keepsFields h
    exact ⟨hframe.keys (by decide), .inl (hframe.dt (by decide)), .inl (hframe.st (by decide))⟩
  · cases h; exact ⟨rfl, .inl rfl, .inl rfl⟩
  · cases h; exact ⟨rfl, .inl rfl, .inl rfl⟩
  · have hframe := exec_keepsFields h
    refine ⟨hframe.keys (keys_notMem_mayChange i), ?_, ?_⟩
    · by_cases hdt : .dt ∈ mayChange i
      · obtain ⟨x, rfl⟩ := eq_ldDTVx_of_dt_mem hdt
        exact .inr ⟨w, x, ha, hf, hd⟩
      · exact .inl (hframe.dt hdt)
    · by_cases hst : .st ∈ mayChange i
      · obtain ⟨x, rfl⟩ := eq_ldSTVx_of_st_mem hst
        exact .inr ⟨w, x, ha, hf, hd⟩
      · exact .inl (hframe.st hst)

/-! ## Errors (60_exceptions.md sections 1 and 2) -/

/-- An instruction that completed raised nothing. -/
theorem not_raised_of_executed {u t : State} {e : Fault} (h : executed u = .next t) : ¬ Raised e t := by
  rw [eq_of_executed h]
  exact nofun

/-- An error after a range check is that of the check (D7). -/
theorem of_checkRange_raised {first count : Nat} {s t u : State} {e : Fault}
    (h : checkRange first count s (executed u) = .next t) (hr : Raised e t) :
    0 < count ∧ first + count > 0x1000 ∧ e = .addressOutOfRange 0x1000 := by
  obtain ⟨h0, hc, rfl⟩ | ⟨-, hgo⟩ := of_checkRange h
  · cases hr; exact ⟨h0, hc, rfl⟩
  · exact absurd hr (not_raised_of_executed hgo)

/-- Why an instruction raises an error. -/
theorem exec_raised_cases {i : Instr} {s t : State} {e : Fault} (h : exec i s = .next t) (hr : Raised e t) :
    (∃ x y n, i = .drwVxVyNibble x y n ∧ 0 < n.toNat ∧ s.i.toNat + n.toNat - 1 > 0xFFF ∧
        e = .addressOutOfRange 0x1000) ∨
      (∃ x, i = .ldBVx x ∧ s.i.toNat + 2 > 0xFFF ∧ e = .addressOutOfRange 0x1000) ∨
      (∃ x, (i = .ldMemVx x ∨ i = .ldVxMem x) ∧ s.i.toNat + x.val > 0xFFF ∧ e = .addressOutOfRange 0x1000) ∨
      (∃ nnn, i = .callAddr nnn ∧ s.sp.val = 16 ∧ e = .stackOverflow) ∨
      (i = .ret ∧ s.sp.val = 0 ∧ e = .stackUnderflow) := by
  cases i with
  | drwVxVyNibble x y n =>
    obtain ⟨h0, hc, he⟩ := of_checkRange_raised h hr
    simp only [indexAddr] at hc
    exact .inl ⟨x, y, n, rfl, h0, by omega, he⟩
  | ldBVx x =>
    obtain ⟨-, hc, he⟩ := of_checkRange_raised h hr
    simp only [indexAddr] at hc
    exact .inr (.inl ⟨x, rfl, by omega, he⟩)
  | ldMemVx x =>
    obtain ⟨-, hc, he⟩ := of_checkRange_raised h hr
    simp only [indexAddr] at hc
    exact .inr (.inr (.inl ⟨x, .inl rfl, by omega, he⟩))
  | ldVxMem x =>
    obtain ⟨-, hc, he⟩ := of_checkRange_raised h hr
    simp only [indexAddr] at hc
    exact .inr (.inr (.inl ⟨x, .inr rfl, by omega, he⟩))
  | callAddr nnn =>
    obtain ⟨h16, hexec⟩ | ⟨_, hexec⟩ := exec_callAddr_cases nnn s <;> rw [hexec] at h
    · rw [eq_of_raise h] at hr; cases hr
      exact .inr (.inr (.inr (.inl ⟨nnn, rfl, h16, rfl⟩)))
    · exact absurd hr (not_raised_of_executed h)
  | ret =>
    obtain ⟨h0, hexec⟩ | ⟨_, -, hexec⟩ := exec_ret_cases s <;> rw [hexec] at h
    · rw [eq_of_raise h] at hr; cases hr
      exact .inr (.inr (.inr (.inr ⟨rfl, h0, rfl⟩)))
    · exact absurd hr (not_raised_of_executed h)
  | ldVxK x => cases h; cases hr
  | _ => exact absurd hr (not_raised_of_executed h)

/-- A poll returns an outcome, never an error (R80). -/
theorem not_raised_of_keywaitPoll {x : Reg} {s t : State} {e : Fault} (h : keywaitPoll x s = .next t) :
    ¬ Raised e t := by
  obtain ⟨k, -, hpoll⟩ | ⟨-, hpoll⟩ := keywaitPoll_cases x s <;> rw [hpoll] at h <;> cases h <;> exact nofun

/-- Settles O21: a failed fetch by `fetch_cases`, an instruction by `exec_raised_cases`; no other case of the step
raises anything. -/
theorem errorsHaveOnlyTheListedCauses : Obligations.ErrorsHaveOnlyTheListedCauses := by
  intro s t e h hr
  obtain ⟨x, -, hstep⟩ | ⟨e', ha, hf, hstep⟩ | ⟨w, -, -, -, hstep⟩ | ⟨w, i, ha, hf, hd, hstep⟩ := step_cases s <;>
    rw [hstep] at h
  · exact absurd hr (not_raised_of_keywaitPoll h)
  · rw [eq_of_raise h] at hr; cases hr
    refine ⟨ha, .inl ?_⟩
    obtain ⟨-, hf'⟩ | ⟨hpc, hf'⟩ | ⟨hpc, hf'⟩ := fetch_cases s <;> rw [hf] at hf' <;> cases hf'
    · exact ⟨Nat.le_of_eq hpc.symm, fun _ => rfl⟩
    · exact ⟨Nat.le_of_lt hpc, fun hpc' => absurd hpc' (Nat.ne_of_gt hpc)⟩
  · cases h; cases hr
  · refine ⟨ha, .inr ⟨w, hf, ?_⟩⟩
    simp only [hd, Option.some.injEq]
    exact exec_raised_cases (s := s.addTwo) h hr

end Sys2Proof.Machine
end

section
/-! Control flow (41_control_flow.md): the words and meanings of return, call and jump, nested calls, and the idle loop. -/

namespace Sys2Proof.Machine

open Sys2Proof.Safety

/-! ## A write of PC -/

/-- A write of PC, with the result of the step recorded, moves nothing but PC. -/
theorem keepsAllBut_writePC_lastResult (s : State) (n : Nat) (r : Option StepResult) :
    KeepsAllBut [.pc] s { s.writePC n with lastResult := r } := by
  apply KeepsAllBut.of_fields <;> simp

/-- All that an instruction does whose meaning is one write of PC. -/
theorem executed_writePC (s : State) (n : Nat) :
    ∃ t, executed (s.writePC n) = .next t ∧ Executed t ∧ t.pc.toNat = n % 0x1000 ∧ KeepsAllBut [.pc] s t :=
  ⟨_, executed_eq _, rfl, toNat_ofNat_mod n, keepsAllBut_writePC_lastResult s n _⟩

theorem toNat_addr_mod (nnn : BitVec 12) : nnn.toNat % 0x1000 = nnn.toNat := Nat.mod_eq_of_lt nnn.isLt

/-! ## RET and CALL -/

theorem exec_ret_of_sp_succ {s : State} {j : Fin 16} (h : s.sp.val = j.val + 1) :
    ∃ t, exec .ret s = .next t ∧ Executed t ∧ t.sp.val = j.val ∧ t.pc.toNat = s.stack[j.val].toNat % 0x1000 ∧
      KeepsAllBut [.pc, .sp] s t := by
  obtain ⟨h0, -⟩ | ⟨hlt, -, hexec⟩ := exec_ret_cases s
  · omega
  · have hj : s.sp.val - 1 = j.val := by omega
    have hnext := hexec.trans (executed_eq _)
    refine ⟨_, hnext, rfl, hj, ?_, (exec_keepsFields hnext).keepsAllBut⟩
    simp only [State.writePC_pc, toNat_ofNat_mod, hj]

theorem exec_ret_of_sp_zero {s : State} (h : s.sp.val = 0) : exec .ret s = raise .stackUnderflow s := by
  obtain ⟨-, hexec⟩ | ⟨-, hpos, -⟩ := exec_ret_cases s
  · exact hexec
  · omega

/-- Settles O23: the word by the round trip of the encoding, the two outcomes by `exec_ret_cases`. -/
theorem returnPopsTheReturnAddress : Obligations.ReturnPopsTheReturnAddress := by
  refine ⟨fun w => (decode_eq_some_iff w .ret).trans eq_comm, fun s => ⟨fun j => exec_ret_of_sp_succ, fun h0 => ?_⟩⟩
  rw [exec_ret_of_sp_zero h0]
  exact raise_spec _ s

theorem exec_callAddr_of_sp_lt (nnn : BitVec 12) {s : State} (h : s.sp.val < 16) :
    ∃ t, exec (.callAddr nnn) s = .next t ∧ Executed t ∧ t.sp.val = s.sp.val + 1 ∧ t.pc.toNat = nnn.toNat ∧
      (∀ j : Fin 16, t.stack[j.val] = if j.val = s.sp.val then s.pc else s.stack[j.val]) ∧
      KeepsAllBut [.pc, .stack, .sp] s t := by
  obtain ⟨h16, -⟩ | ⟨_, hexec⟩ := exec_callAddr_cases nnn s
  · omega
  · have hnext := hexec.trans (executed_eq _)
    refine ⟨_, hnext, rfl, rfl, ?_, fun j => ?_, (exec_keepsFields hnext).keepsAllBut⟩
    · exact (toNat_ofNat_mod _).trans (toNat_addr_mod nnn)
    · simp only [State.writePC_stack, Vector.getElem_set, eq_comm]

theorem exec_callAddr_of_sp_eq (nnn : BitVec 12) {s : State} (h : s.sp.val = 16) :
    exec (.callAddr nnn) s = raise .stackOverflow s := by
  obtain ⟨-, hexec⟩ | ⟨hlt, -⟩ := exec_callAddr_cases nnn s
  · exact hexec
  · omega

/-- Settles O24: the word by `decode_2nnn`, the two outcomes by `exec_callAddr_cases`. -/
theorem callPushesTheNextAddress : Obligations.CallPushesTheNextAddress := by
  refine fun nnn s => ⟨decode_2nnn nnn, exec_callAddr_of_sp_lt nnn, fun h16 => ?_⟩
  rw [exec_callAddr_of_sp_eq nnn h16]
  exact raise_spec _ s

/-- Of a call and a return, the return undoes the moves of PC and SP. -/
theorem keepsAllBut_of_call_of_ret {s t u : State} (hcall : KeepsFields [.pc, .stack, .sp] s t)
    (hret : KeepsFields [.pc, .sp] t u) (hpc : u.pc = s.pc) (hsp : u.sp = s.sp) : KeepsAllBut [.stack] s u :=
  KeepsAllBut.of_fields (params := hret.params.trans hcall.params) (pc := fun _ => hpc) (sp := fun _ => hsp)
    (stack := fun h => absurd (List.mem_singleton.mpr rfl) h)
    (v := fun _ => (hret.v (by decide)).trans (hcall.v (by decide)))
    (i := fun _ => (hret.i (by decide)).trans (hcall.i (by decide)))
    (dt := fun _ => (hret.dt (by decide)).trans (hcall.dt (by decide)))
    (st := fun _ => (hret.st (by decide)).trans (hcall.st (by decide)))
    (fb := fun _ => (hret.fb (by decide)).trans (hcall.fb (by decide)))
    (keys := fun _ => (hret.keys (by decide)).trans (hcall.keys (by decide)))
    (aw := fun _ => (hret.aw (by decide)).trans (hcall.aw (by decide)))
    (seenKeys := fun _ => (hret.seenKeys (by decide)).trans (hcall.seenKeys (by decide)))
    (mem := fun _ => (hret.mem (by decide)).trans (hcall.mem (by decide)))
    (draws := fun _ => (hret.draws (by decide)).trans (hcall.draws (by decide)))

/-- Settles O25: the return pops the slot the call wrote, whose value is a bounded PC and so not reduced. -/
theorem returnContinuesAfterTheCall : Obligations.ReturnContinuesAfterTheCall := by
  intro nnn s hsp hpc
  obtain ⟨t, ht, -, htsp, -, htstack, -⟩ := exec_callAddr_of_sp_lt nnn hsp
  obtain ⟨u, hu, hdone, husp, hupc, -⟩ := exec_ret_of_sp_succ (s := t) (j := ⟨s.sp.val, hsp⟩) htsp
  rw [htstack ⟨s.sp.val, hsp⟩, if_pos rfl, Nat.mod_eq_of_lt (Nat.lt_succ_of_le hpc)] at hupc
  have hpc' : u.pc = s.pc := BitVec.eq_of_toNat_eq hupc
  have hsp' : u.sp = s.sp := Fin.ext husp
  exact ⟨t, u, ht, hu, hdone, hpc', hsp',
    keepsAllBut_of_call_of_ret (exec_keepsFields ht) (exec_keepsFields hu) hpc' hsp'⟩

/-- Calls run one after another while slots are left, one slot each. -/
theorem execAll_callAddr (targets : List (BitVec 12)) (s : State) (h : s.sp.val + targets.length ≤ 16) :
    ∃ t, execAll (targets.map Instr.callAddr) s = .next t ∧ t.sp.val = s.sp.val + targets.length ∧
      (targets ≠ [] → Executed t) := by
  induction targets generalizing s with
  | nil => exact ⟨s, rfl, rfl, fun hne => absurd rfl hne⟩
  | cons nnn rest ih =>
    rw [List.length_cons] at h
    obtain ⟨u, hu, hdone, husp, -⟩ := exec_callAddr_of_sp_lt nnn (s := s) (by omega)
    obtain ⟨t, ht, htsp, htdone⟩ := ih u (by omega)
    refine ⟨t, ?_, by rw [htsp, husp, List.length_cons]; omega, fun _ => ?_⟩
    · rw [List.map_cons, execAll, hu]
      exact ht
    · cases rest with
      | nil => cases ht; exact hdone
      | cons _ _ => exact htdone (List.cons_ne_nil _ _)

/-- Settles O26: `execAll_callAddr` from the empty stack; the 17th call finds every slot used. -/
theorem sixteenNestedCallsThenOverflow : Obligations.SixteenNestedCallsThenOverflow := by
  intro targets s h0 hlen
  obtain ⟨t, ht, htsp, hdone⟩ := execAll_callAddr targets s (by omega)
  rw [h0, Nat.zero_add] at htsp
  refine ⟨t, ht, htsp, hdone, fun h16 nnn => ?_⟩
  rw [exec_callAddr_of_sp_eq nnn (htsp.trans h16)]
  exact ⟨_, raise_eq _ t, rfl⟩

/-! ## Jumps -/

theorem exec_jpAddr (nnn : BitVec 12) (s : State) : exec (.jpAddr nnn) s = executed (s.writePC nnn.toNat) := rfl

theorem exec_jpV0Addr (nnn : BitVec 12) (s : State) :
    exec (.jpV0Addr nnn) s = executed (s.writePC (nnn.toNat + (jumpOffset nnn s).toNat)) := rfl

theorem jumpOffset_v0 (nnn : BitVec 12) {s : State} (h : s.params.jumpOffsetReg = .v0) :
    jumpOffset nnn s = s.readV 0 := by
  rw [jumpOffset, h]

/-- The offset register is the one that bits 11:8 of NNN name (R97). -/
theorem jumpOffset_vx {nnn : BitVec 12} {s : State} {x : Reg} (h : s.params.jumpOffsetReg = .vx)
    (hx : x.val = nnn.toNat / 0x100) : jumpOffset nnn s = s.readV x := by
  have hreg : regOfBits (nnn.extractLsb' 8 4) = x := by
    apply Fin.ext
    have := nnn.isLt
    simp only [regOfBits, BitVec.extractLsb'_toNat, Nat.shiftRight_eq_div_pow, hx]
    omega
  rw [jumpOffset, h, hreg]

/-- All that `JP addr` does. -/
theorem exec_jpAddr_spec (nnn : BitVec 12) (s : State) :
    ∃ t, exec (.jpAddr nnn) s = .next t ∧ Executed t ∧ t.pc.toNat = nnn.toNat ∧ KeepsAllBut [.pc] s t := by
  simpa only [exec_jpAddr, toNat_addr_mod] using executed_writePC s nnn.toNat

/-- Settles O27: each jump is one `executed_writePC`. -/
theorem jumpsSetThePC : Obligations.JumpsSetThePC := by
  intro nnn s
  refine ⟨exec_jpAddr_spec nnn s, ?_⟩
  rw [exec_jpV0Addr]
  obtain ⟨t, ht, hdone, hpc, hkeep⟩ := executed_writePC s (nnn.toNat + (jumpOffset nnn s).toNat)
  refine ⟨t, ht, hdone, hkeep, fun hv0 => ?_, fun hvx x hx => ?_⟩
  · rw [hpc, jumpOffset_v0 nnn hv0]
  · rw [hpc, jumpOffset_vx hvx hx]

/-! ## The idle loop (R95, 60_exceptions.md R148) -/

/-- The step of a jump to its own address. -/
theorem step_selfJump {s : State} (ha : s.aw = none) (hpc : s.pc.toNat < 0xFFF)
    (hf : fetch s = .ok (0x1#4 ++ BitVec.ofNat 12 s.pc.toNat)) :
    step s = .next { s with lastResult := some (.outcome .executed) } := by
  have hself : BitVec.ofNat 16 ((BitVec.ofNat 12 s.pc.toNat).toNat % 0x1000) = s.pc := by
    apply BitVec.eq_of_toNat_eq
    rw [toNat_ofNat_mod, toNat_addr_mod, BitVec.toNat_ofNat]
    omega
  rw [step_of_decode_some ha hf (decode_1nnn _), exec_jpAddr, executed_eq]
  simp only [State.writePC, State.addTwo, hself]

theorem atSelfJump_eq_true {s : State} (ha : s.aw = none) (hpc : s.pc.toNat < 0xFFF)
    (hf : fetch s = .ok (0x1#4 ++ BitVec.ofNat 12 s.pc.toNat)) : atSelfJump s = true := by
  simp only [atSelfJump, ha, hf, decode_1nnn, decide_eq_true_eq]
  exact ⟨trivial, Nat.le_of_lt hpc⟩

/-- Settles O28: the advanced PC is written back to where it was, so only the result of the step is new. -/
theorem selfJumpIsTheIdleLoop : Obligations.SelfJumpIsTheIdleLoop := by
  intro s ha hpc hf
  refine ⟨_, step_selfJump ha hpc hf, rfl, keepsAllBut_lastResult s _, ?_⟩
  simp only [runEnd, atSelfJump_eq_true ha hpc hf, if_true]

end Sys2Proof.Machine
end

section
/-! Register arithmetic (42_register_alu.md): the forms that write one register, the logic group, the forms that write a
flag last, and the masked random byte. -/

namespace Sys2Proof.Machine

open Sys2Proof.Safety

/-! ## One register -/

theorem exec_addVxByte (x : Reg) (kk : Byte) (s : State) :
    exec (.addVxByte x kk) s = executed (s.writeV x (s.readV x + kk)) := rfl

theorem exec_ldVxVy (x y : Reg) (s : State) : exec (.ldVxVy x y) s = executed (s.writeV x (s.readV y)) := rfl

/-- Settles O31: each is one `executed_writeV`. -/
theorem immediateAddAndMoveSetOnlyVX : Obligations.ImmediateAddAndMoveSetOnlyVX := by
  intro x y kk s
  constructor
  · rw [exec_addVxByte]
    obtain ⟨t, ht, hdone, hx, hrest⟩ := executed_writeV s x (s.readV x + kk)
    exact ⟨t, ht, hdone, by rw [hx, BitVec.toNat_add], hrest⟩
  · rw [exec_ldVxVy]
    exact executed_writeV s x (s.readV y)

/-! ## The logic group (R106 to R108) -/

/-- All that an instruction of the logic group does, whatever byte it computes: VF is reset after VX is written. -/
theorem executed_writeV_afterLogic (s : State) (x : Reg) (b : Byte) :
    ∃ t, executed (s.writeV x b).afterLogic = .next t ∧ Executed t ∧ KeepsAllBut [.v] s t ∧
      (s.params.logicVfReset = true → t.readV Reg.vf = 0) ∧
      (s.params.logicVfReset = false ∨ x ≠ Reg.vf → t.readV x = b) ∧
      (∀ z : Reg, z ≠ x → s.params.logicVfReset = false ∨ z ≠ Reg.vf → t.readV z = s.readV z) := by
  have kept : ∀ z : Reg, s.params.logicVfReset = false ∨ z ≠ Reg.vf →
      (s.writeV x b).afterLogic.readV z = (s.writeV x b).readV z := by
    intro z hz
    rw [State.readV_afterLogic, if_neg]
    rintro ⟨hreset, hvf⟩
    rcases hz with hoff | hne
    · exact Bool.noConfusion (hreset.symm.trans hoff)
    · exact hne hvf
  refine ⟨_, executed_eq _, rfl, ?_, fun hreset => ?_, fun hx => ?_, fun z hz hvf => ?_⟩
  · apply KeepsAllBut.of_fields <;> simp
  · exact (State.readV_afterLogic _ _).trans (if_pos ⟨hreset, rfl⟩)
  · exact (kept x hx).trans (s.readV_writeV_self x b)
  · exact (kept z hvf).trans (s.readV_writeV_ne b hz)

/-- The logic group bit by bit: `bit` computes one bit of the result from those of VX and VY. -/
theorem executed_logic {s : State} {x : Reg} {b c d : Byte} {bit : Bool → Bool → Bool}
    (hbit : ∀ j, d.getLsbD j = bit (b.getLsbD j) (c.getLsbD j)) :
    ∃ t, executed (s.writeV x d).afterLogic = .next t ∧ Executed t ∧ KeepsAllBut [.v] s t ∧
      (s.params.logicVfReset = true → t.readV Reg.vf = 0) ∧
      (s.params.logicVfReset = false ∨ x ≠ Reg.vf →
        ∀ j, (t.readV x).getLsbD j = bit (b.getLsbD j) (c.getLsbD j)) ∧
      (∀ z : Reg, z ≠ x → s.params.logicVfReset = false ∨ z ≠ Reg.vf → t.readV z = s.readV z) := by
  obtain ⟨t, ht, hdone, hkeep, hreset, hx, hrest⟩ := executed_writeV_afterLogic s x d
  exact ⟨t, ht, hdone, hkeep, hreset, fun h j => by rw [hx h, hbit], hrest⟩

/-- Settles O32: the three instructions differ in the bit they compute only. -/
theorem logicGroupComputesBitwise : Obligations.LogicGroupComputesBitwise :=
  fun _ _ _ => ⟨executed_logic (bit := or) fun _ => BitVec.getLsbD_or,
    executed_logic (bit := and) fun _ => BitVec.getLsbD_and, executed_logic (bit := xor) fun _ => BitVec.getLsbD_xor⟩

/-! ## A result and a flag (R109 to R113) -/

theorem toNat_flagByte (c : Bool) : (flagByte c).toNat = if c then 1 else 0 := by
  cases c <;> rfl

/-- All that an instruction does which writes a result to VX and then a flag to VF. -/
theorem executed_writeVFlag (s : State) (x : Reg) (b : Byte) (c : Bool) :
    ∃ t, executed (s.writeVFlag x b (flagByte c)) = .next t ∧ Executed t ∧ (x ≠ Reg.vf → t.readV x = b) ∧
      (t.readV Reg.vf).toNat = (if c then 1 else 0) ∧
      (∀ z : Reg, z ≠ x → z ≠ Reg.vf → t.readV z = s.readV z) ∧ KeepsAllBut [.v] s t := by
  refine ⟨_, executed_eq _, rfl, s.readV_writeVFlag_self b _, ?_, fun z hx hvf => s.readV_writeVFlag_ne b _ hx hvf, ?_⟩
  · exact (congrArg BitVec.toNat (s.readV_writeVFlag_vf x b _)).trans (toNat_flagByte c)
  · apply KeepsAllBut.of_fields <;> simp

theorem exec_addVxVy (x y : Reg) (s : State) :
    exec (.addVxVy x y) s = executed (s.writeVFlag x (s.readV x + s.readV y)
      (flagByte (decide ((s.readV x).toNat + (s.readV y).toNat > 255)))) := rfl

/-- Settles O33: one `executed_writeVFlag` of the sum and the carry. -/
theorem addSetsTheCarry : Obligations.AddSetsTheCarry := by
  intro x y s
  rw [exec_addVxVy]
  obtain ⟨t, ht, hdone, hx, hvf, hrest⟩ := executed_writeVFlag s x (s.readV x + s.readV y)
    (decide ((s.readV x).toNat + (s.readV y).toNat > 255))
  refine ⟨t, ht, hdone, fun hne => ?_, ?_, hrest⟩
  · rw [hx hne, BitVec.toNat_add]
  · simpa only [decide_eq_true_eq] using hvf

/-- All that a subtraction `a - b` into VX does (R110, R112). -/
theorem executed_sub (s : State) (x : Reg) (a b : Byte) :
    ∃ t, executed (s.writeVFlag x (a - b) (notBorrowFlag a b)) = .next t ∧ Executed t ∧
      (x ≠ Reg.vf → (t.readV x).toNat = (256 + a.toNat - b.toNat) % 256) ∧
      (t.readV Reg.vf).toNat = (if a.toNat ≥ b.toNat then 1 else 0) ∧
      (∀ z : Reg, z ≠ x → z ≠ Reg.vf → t.readV z = s.readV z) ∧ KeepsAllBut [.v] s t := by
  obtain ⟨t, ht, hdone, hx, hvf, hrest⟩ := executed_writeVFlag s x (a - b) (decide (b.toNat ≤ a.toNat))
  refine ⟨t, ht, hdone, fun hne => ?_, ?_, hrest⟩
  · have := b.isLt
    rw [hx hne, BitVec.toNat_sub]
    congr 1
    omega
  · simpa only [decide_eq_true_eq] using hvf

/-- Settles O34: the two instructions are `executed_sub` with the operands exchanged. -/
theorem subtractionsSetNotBorrow : Obligations.SubtractionsSetNotBorrow :=
  fun x y s => ⟨executed_sub s x (s.readV x) (s.readV y), executed_sub s x (s.readV y) (s.readV x)⟩

/-! ## Shifts -/

theorem exec_shrVxVy (x y : Reg) (s : State) :
    exec (.shrVxVy x y) s = executed (s.writeVFlag x (shiftOperand x y s >>> 1)
      (flagByte ((shiftOperand x y s).getLsbD 0))) := rfl

theorem exec_shlVxVy (x y : Reg) (s : State) :
    exec (.shlVxVy x y) s = executed (s.writeVFlag x (shiftOperand x y s <<< 1)
      (flagByte ((shiftOperand x y s).getLsbD 7))) := rfl

/-- The source is VX, or VY when `SHIFT_SOURCE` is VY (R111, R113). -/
theorem shiftOperand_toNat {x y : Reg} {s : State} {src : Nat}
    (hvx : s.params.shiftSource = .vx → src = (s.readV x).toNat)
    (hvy : s.params.shiftSource = .vy → src = (s.readV y).toNat) : (shiftOperand x y s).toNat = src := by
  unfold shiftOperand
  cases h : s.params.shiftSource with
  | vx => exact (hvx h).symm
  | vy => exact (hvy h).symm

theorem lowBit_eq_mod (b : Byte) : (if b.getLsbD 0 then 1 else 0) = b.toNat % 2 := by
  rw [BitVec.getLsbD, Nat.testBit_zero]
  rcases Nat.mod_two_eq_zero_or_one b.toNat with h | h <;> simp [h]

theorem highBit_eq_div (b : Byte) : (if b.getLsbD 7 then 1 else 0) = b.toNat / 128 := by
  have hlt : b.toNat / 128 < 2 := by have := b.isLt; omega
  rw [BitVec.getLsbD, Nat.testBit_eq_decide_div_mod_eq]
  simp only [decide_eq_true_eq]
  split <;> omega

/-- Settles O35: each shift is one `executed_writeVFlag` of the shifted source and the bit moved out. -/
theorem shiftsMoveABitIntoVF : Obligations.ShiftsMoveABitIntoVF := by
  intro x y s src hvx hvy
  have hsrc : (shiftOperand x y s).toNat = src := shiftOperand_toNat hvx hvy
  constructor
  · rw [exec_shrVxVy]
    obtain ⟨t, ht, hdone, hx, hvf, hrest⟩ := executed_writeVFlag s x (shiftOperand x y s >>> 1)
      ((shiftOperand x y s).getLsbD 0)
    refine ⟨t, ht, hdone, fun hne => ?_, by rw [hvf, lowBit_eq_mod, hsrc], hrest⟩
    rw [hx hne, BitVec.toNat_ushiftRight, hsrc, Nat.shiftRight_eq_div_pow, Nat.pow_one]
  · rw [exec_shlVxVy]
    obtain ⟨t, ht, hdone, hx, hvf, hrest⟩ := executed_writeVFlag s x (shiftOperand x y s <<< 1)
      ((shiftOperand x y s).getLsbD 7)
    refine ⟨t, ht, hdone, fun hne => ?_, by rw [hvf, highBit_eq_div, hsrc], hrest⟩
    rw [hx hne, BitVec.toNat_shiftLeft, hsrc, Nat.shiftLeft_eq, Nat.pow_one, Nat.mul_comm]

/-! ## The random byte (R114) -/

theorem exec_rndVxByte (x : Reg) (kk : Byte) (s : State) :
    exec (.rndVxByte x kk) s =
      executed (({ s with draws := s.draws + 1 } : State).writeV x (Config.rand s.draws &&& kk)) := rfl

/-- A mask leaves no bit outside it. -/
theorem and_and_not_self (b kk : Byte) : b &&& kk &&& ~~~kk = 0 := by
  rw [BitVec.and_assoc, BitVec.and_not_self]
  exact BitVec.and_zero

/-- Settles O36: whatever byte the oracle gives. -/
theorem randomByteIsMasked : Obligations.RandomByteIsMasked := by
  intro x kk s
  obtain ⟨t, ht, hdone, hx, hother, hkeep⟩ :=
    executed_writeV { s with draws := s.draws + 1 } x (Config.rand s.draws &&& kk)
  have hexec := (exec_rndVxByte x kk s).trans ht
  refine ⟨t, hexec, hdone, hx, ?_, hother, hkeep.draws (by decide), (exec_keepsFields hexec).keepsAllBut⟩
  rw [hx]
  exact and_and_not_self _ kk

end Sys2Proof.Machine
end

section
/-! The address register and the transfers through it (44_index_memory.md), and what a range past the end of memory does
(40_step_cycle.md section 7). -/

namespace Sys2Proof.Machine

open Sys2Proof.Safety

/-! ## The range check -/

/-- All that an instruction does whose range runs past 0xFFF (R86, R130). -/
theorem checkRange_raise_spec {first count : Nat} (s : State) (go : Host.Outcome State Fault Refusal) (h0 : 0 < count)
    (h : first + count > 0x1000) :
    ∃ t, checkRange first count s go = .next t ∧ Raised (.addressOutOfRange 0x1000) t ∧ KeepsAllBut [] s t := by
  rw [checkRange_error s go h0 h]
  exact raise_spec _ s

/-- Settles O40: each of the four is a `checkRange` that fails. -/
theorem rangeErrorsLeaveNoPartialEffect : Obligations.RangeErrorsLeaveNoPartialEffect := by
  intro x y n s
  refine ⟨fun h0 h => ?_, fun h => ?_, fun h => ⟨?_, ?_⟩⟩
  · rw [exec_drwVxVyNibble]
    exact checkRange_raise_spec s _ h0 (by omega)
  · rw [exec_ldBVx]
    exact checkRange_raise_spec s _ (by decide) (by omega)
  · rw [exec_ldMemVx]
    exact checkRange_raise_spec s _ (by omega) (by omega)
  · rw [exec_ldVxMem]
    exact checkRange_raise_spec s _ (by omega) (by omega)

/-! ## The address register -/

theorem exec_addIVx (x : Reg) (s : State) :
    exec (.addIVx x) s = executed (s.writeI (s.i.toNat + (s.readV x).toNat)) := rfl

/-- Settles O43: one `executed_writeI`, whose frame has VF in it. -/
theorem addToIndexWrapsWithoutAFlag : Obligations.AddToIndexWrapsWithoutAFlag := by
  intro x s
  rw [exec_addIVx]
  exact executed_writeI s _

/-- The bytes of a glyph in an untouched memory (20_memory.md section 3). -/
theorem readByte_font {s : State} (hm : s.mem = []) {k : Nat} (hk : k < 80) :
    s.readByte (s.params.fontBase.val + k) = s.params.fontData[k] := by
  have hrange : s.params.fontBase.val ≤ s.params.fontBase.val + k ∧
      s.params.fontBase.val + k - s.params.fontBase.val < 80 := by omega
  rw [State.readByte, Memory.read, hm, Memory.lookup, Option.getD_none, Memory.unlisted, dif_pos hrange]
  simp only [Nat.add_sub_cancel_left]

theorem exec_ldFVx (x : Reg) (s : State) :
    exec (.ldFVx x) s = executed (s.writeI (s.params.fontBase.val + 5 * digitOperand x s)) := rfl

/-- Settles O41: one `executed_writeI`; a base of at most 432 and a digit of at most 255 need no reduction. -/
theorem fontAddressPointsAtTheGlyph : Obligations.FontAddressPointsAtTheGlyph := by
  rintro x s d rfl
  refine ⟨fun hmask => digitOperand_lowNibble hmask x, ?_⟩
  rw [exec_ldFVx, digitOperand]
  obtain ⟨t, ht, hdone, hi, hkeep⟩ :=
    executed_writeI s (s.params.fontBase.val + 5 * (s.readV x &&& s.params.fontDigitMask).toNat)
  refine ⟨t, ht, hdone, hkeep, hi, fun hm j hj hfont => ?_⟩
  have hbase := s.params.fontBase.isLt
  rw [hkeep.mem (by decide), hi, Nat.mod_eq_of_lt (by omega), Nat.add_assoc]
  exact readByte_font hm hfont

/-! ## BCD (R120) -/

theorem toNat_ofNat_of_le {n : Nat} (b : Byte) (h : n ≤ b.toNat) : (BitVec.ofNat 8 n).toNat = n := by
  rw [BitVec.toNat_ofNat]
  exact Nat.mod_eq_of_lt (Nat.lt_of_le_of_lt h b.isLt)

/-- Settles O44: the three digits by the law of a block store, each a byte since it is at most VX. -/
theorem bcdStoresThreeDigits : Obligations.BcdStoresThreeDigits := by
  intro x s h
  have hexec : exec (.ldBVx x) s = executed (s.writeBytes s.i.toNat (bcdDigits (s.readV x))) := by
    rw [exec_ldBVx, checkRange_ok s _ (by omega)]
  have hnext := hexec.trans (executed_eq _)
  have hbyte := s.readByte_writeBytes s.i.toNat (bcdDigits (s.readV x))
  have hhundreds : (s.readV x).toNat / 100 ≤ (s.readV x).toNat := Nat.div_le_self _ _
  have htens : (s.readV x).toNat / 10 % 10 ≤ (s.readV x).toNat := Nat.le_trans (Nat.mod_le _ _) (Nat.div_le_self _ _)
  have hones : (s.readV x).toNat % 10 ≤ (s.readV x).toNat := Nat.mod_le _ _
  refine ⟨_, hnext, rfl, (exec_keepsFields hnext).keepsAllBut, (congrArg BitVec.toNat (hbyte _)).trans ?_,
    (congrArg BitVec.toNat (hbyte _)).trans ?_, (congrArg BitVec.toNat (hbyte _)).trans ?_,
    fun a ha => (hbyte a).trans (if_neg ?_)⟩
  · simp [bcdDigits, toNat_ofNat_of_le _ hhundreds]
  · simp [bcdDigits, toNat_ofNat_of_le _ htens]
  · simp [bcdDigits, toNat_ofNat_of_le _ hones]
  · simp only [indexAddr] at ha
    simp only [bcdDigits, List.length_cons, List.length_nil]
    omega

/-! ## Block transfers (R121, R122) -/

/-- I after a block transfer up to VX (D14). -/
def blockIndex (s : State) (x : Reg) : Word :=
  if s.params.loadstoreIIncrement then BitVec.ofNat 16 ((s.i.toNat + x.val + 1) % 0x1000) else s.i

theorem readByte_afterBlock (s : State) (x : Reg) (a : Nat) : (s.afterBlock x).readByte a = s.readByte a :=
  State.readByte_congr (s.afterBlock_params x) (s.afterBlock_mem x) a

/-- What a block store of V0 to VX leaves at every address. -/
theorem readByte_storeBlock (s : State) (x : Reg) (a k : Nat) :
    (s.writeBytes a (s.regsUpTo x)).readByte k =
      if a ≤ k ∧ k - a < x.val + 1 then (s.regsUpTo x).getD (k - a) 0 else s.readByte k := by
  rw [State.readByte_writeBytes, State.regsUpTo_length]

theorem regsUpTo_getD (s : State) {x j : Reg} (h : j ≤ x) : (s.regsUpTo x).getD j.val 0 = s.readV j := by
  have hlen : j.val < (s.regsUpTo x).length := by
    rw [State.regsUpTo_length]
    exact Nat.lt_succ_of_le h
  rw [List.getD_eq_getElem _ _ hlen, State.regsUpTo_getElem]

/-- All that FX55 does whose block lies in memory. -/
theorem exec_ldMemVx_spec {s : State} {x : Reg} (h : s.i.toNat + x.val ≤ 0xFFF) :
    ∃ t, exec (.ldMemVx x) s = .next t ∧ Executed t ∧ KeepsAllBut [.mem, .i] s t ∧ t.i = blockIndex s x ∧
      (∀ j : Reg, j ≤ x → t.readByte (s.i.toNat + j.val) = s.readV j) ∧
      (∀ a : Nat, a < s.i.toNat ∨ s.i.toNat + x.val < a → t.readByte a = s.readByte a) := by
  have hexec : exec (.ldMemVx x) s = executed ((s.writeBytes s.i.toNat (s.regsUpTo x)).afterBlock x) := by
    rw [exec_ldMemVx, checkRange_ok s _ (by omega)]
  have hnext := hexec.trans (executed_eq _)
  have hbyte : ∀ k, ((s.writeBytes s.i.toNat (s.regsUpTo x)).afterBlock x).readByte k = _ := fun k =>
    (readByte_afterBlock _ x k).trans (readByte_storeBlock s x s.i.toNat k)
  refine ⟨_, hnext, rfl, (exec_keepsFields hnext).keepsAllBut, ?_, fun j hj => (hbyte _).trans ?_,
    fun a ha => (hbyte a).trans (if_neg (by omega))⟩
  · simp [State.afterBlock_i, blockIndex]
  · have hlt : j.val < x.val + 1 := Nat.lt_succ_of_le hj
    rw [if_pos (by omega), Nat.add_sub_cancel_left]
    exact regsUpTo_getD s hj

/-- All that FX65 does whose block lies in memory. -/
theorem exec_ldVxMem_spec {s : State} {x : Reg} (h : s.i.toNat + x.val ≤ 0xFFF) :
    ∃ t, exec (.ldVxMem x) s = .next t ∧ Executed t ∧ KeepsAllBut [.v, .i] s t ∧ t.i = blockIndex s x ∧
      ∀ j : Reg, t.readV j = if j ≤ x then s.readByte (s.i.toNat + j.val) else s.readV j := by
  have hexec : exec (.ldVxMem x) s =
      executed ({ s with v := RegFile.load s.v 0 (s.readBytes s.i.toNat (x.val + 1)) }.afterBlock x) := by
    rw [exec_ldVxMem, checkRange_ok s _ (by omega)]
  have hnext := hexec.trans (executed_eq _)
  refine ⟨_, hnext, rfl, (exec_keepsFields hnext).keepsAllBut, ?_, fun j => ?_⟩
  · simp [State.afterBlock_i, blockIndex]
  · exact (readV_afterBlock _ x j).trans (readV_loadBlock s s.i.toNat x j)

/-- Settles O45: the bytes of `exec_ldMemVx_spec`. -/
theorem blockStoreWritesTheRegisters : Obligations.BlockStoreWritesTheRegisters := by
  intro x s h
  obtain ⟨t, ht, hdone, hkeep, -, hblock, hrest⟩ := exec_ldMemVx_spec h
  exact ⟨t, ht, hdone, hkeep, hblock, hrest⟩

/-- Settles O46: the registers of `exec_ldVxMem_spec`, those up to VX and those above it. -/
theorem blockLoadFillsTheRegisters : Obligations.BlockLoadFillsTheRegisters := by
  intro x s h
  obtain ⟨t, ht, hdone, hkeep, -, hv⟩ := exec_ldVxMem_spec h
  exact ⟨t, ht, hdone, hkeep, fun j hj => (hv j).trans (if_pos hj), fun j hj => (hv j).trans (if_neg (not_le.mpr hj))⟩

/-- Settles O18: both transfers leave I at `blockIndex`. -/
theorem blockTransfersMoveIByTheParameter : Obligations.BlockTransfersMoveIByTheParameter := by
  intro s x h
  obtain ⟨t, ht, -, -, hti, -⟩ := exec_ldMemVx_spec h
  obtain ⟨u, hu, -, -, hui, -⟩ := exec_ldVxMem_spec h
  refine ⟨t, u, ht, hu, hti.trans hui.symm, fun hinc => ?_, fun hinc => ?_⟩
  · rw [hti, blockIndex, if_pos hinc, toNat_ofNat_mod]
  · rw [hti, blockIndex, hinc]
    rfl

/-- Settles O47: with I where it was, the load reads the bytes the store wrote. -/
theorem blockStoreThenLoadRestores : Obligations.BlockStoreThenLoadRestores := by
  intro x s v h hinc
  obtain ⟨t, ht, -, -, hti, hblock, -⟩ := exec_ldMemVx_spec h
  have hi : t.i = s.i := by
    rw [hti, blockIndex, hinc]
    rfl
  obtain ⟨u, hu, -, -, -, hv⟩ := exec_ldVxMem_spec (s := { t with v := v }) (x := x) (by rw [hi]; exact h)
  refine ⟨t, u, ht, hu, fun j hj => ?_⟩
  rw [hv j, if_pos hj, hi]
  exact hblock j hj

/-- Settles O22: the store keeps PC, and the two bytes of the fetch are the first two of the block. -/
theorem storedBytesAreFetchedNext : Obligations.StoredBytesAreFetchedNext := by
  intro s x hx hipc h
  obtain ⟨t, ht, -, hkeep, -, hblock, -⟩ := exec_ldMemVx_spec h
  have hpc : t.pc.toNat = s.i.toNat := by rw [hkeep.pc (by decide), hipc]
  have hhi : t.readByte t.pc.toNat = s.readV 0 := by
    rw [hpc]
    exact hblock 0 (Fin.zero_le x)
  have hlo : t.readByte (t.pc.toNat + 1) = s.readV 1 := by
    rw [hpc]
    exact hblock 1 hx
  refine ⟨t, _, ht, fetch_of_pc_lt (by omega), ?_⟩
  rw [wordOfBytes_toNat, hhi, hlo]

end Sys2Proof.Machine
end

section
/-! Drawing a sprite (43_display.md R116): the flips of `drawSprite` are the pixels of `SpriteHits`, once and twice. -/

namespace Sys2Proof.Machine

open Sys2Proof.Safety

/-- The rows DXYN reads hit the pixels of the sprite in memory. -/
theorem rowsHit_readBytes (s : State) (x0 y0 base n : Nat) :
    RowsHit x0 y0 0 (s.readBytes base n) = SpriteHits s x0 y0 base n := by
  funext px py
  unfold RowsHit SpriteHits
  rw [State.readBytes_length]
  apply propext
  constructor
  · rintro ⟨r, c, hr, hc, hbit, hx, hy⟩
    rw [s.readBytes_getD base n r hr] at hbit
    rw [Nat.zero_add] at hy
    exact ⟨r, c, hr, hc, hbit, hx, hy⟩
  · rintro ⟨r, c, hr, hc, hbit, hx, hy⟩
    refine ⟨r, c, hr, hc, ?_, hx, ?_⟩
    · rw [s.readBytes_getD base n r hr]
      exact hbit
    · rw [Nat.zero_add]
      exact hy

/-- The pixels DXYN draws on in the state `s`. -/
def drawHits (x y : Reg) (n : BitVec 4) (s : State) : Fin 64 → Fin 32 → Prop :=
  SpriteHits s (s.readV x).toNat (s.readV y).toNat s.i.toNat n.toNat

theorem spriteResult_flips (x y : Reg) (n : BitVec 4) (s : State) :
    Flips (drawHits x y n s) (s.fb, false) (spriteResult x y n s) := by
  have hlen : (s.readBytes s.i.toNat n.toNat).length ≤ 32 := by
    rw [State.readBytes_length]
    exact Nat.le_trans (Nat.le_of_lt n.isLt) (by decide)
  have hflips := drawSprite_flips s.fb (s.readV x).toNat (s.readV y).toNat _ hlen
  rwa [rowsHit_readBytes] at hflips

/-- All that DXYN does whose sprite lies in memory; `hit` is the collision. -/
theorem exec_drwVxVyNibble_spec {x y : Reg} {n : BitVec 4} {s : State}
    (h : n.toNat = 0 ∨ s.i.toNat + n.toNat ≤ 0x1000) :
    ∃ t hit, exec (.drwVxVyNibble x y n) s = .next t ∧ Executed t ∧ KeepsAllBut [.v, .fb] s t ∧
      (∀ z : Reg, z ≠ Reg.vf → t.readV z = s.readV z) ∧ t.readV Reg.vf = flagByte hit ∧
      Flips (drawHits x y n s) (s.fb, false) (t.fb, hit) := by
  have hexec : exec (.drwVxVyNibble x y n) s = executed ({ s with
      fb := (spriteResult x y n s).1 }.writeV Reg.vf (flagByte (spriteResult x y n s).2)) := by
    obtain ⟨h0, hc, -⟩ | ⟨-, hgo⟩ := checkRange_cases s.i.toNat n.toNat s (executed ({ s with
      fb := (spriteResult x y n s).1 }.writeV Reg.vf (flagByte (spriteResult x y n s).2)))
    · omega
    · rw [exec_drwVxVyNibble, hgo]
  have hnext := hexec.trans (executed_eq _)
  exact ⟨_, (spriteResult x y n s).2, hnext, rfl, (exec_keepsFields hnext).keepsAllBut,
    fun z hz => State.readV_writeV_ne _ _ hz, State.readV_writeV_self _ _ _, spriteResult_flips x y n s⟩

theorem flagByte_eq_one_iff (c : Bool) : flagByte c = 1 ↔ c = true := by
  cases c <;> decide

/-- On an empty collision, VF is 1 exactly when a flipped pixel held a 1. -/
theorem Flips.hit_iff {hits : Fin 64 → Fin 32 → Prop} {fb fb' : FrameBuffer} {hit : Bool}
    (f : Flips hits (fb, false) (fb', hit)) : hit = true ↔ ∃ px py, hits px py ∧ fb.get px py = true := by
  simpa using f.collision

/-- Settles O38: the flips of the drawing, read pixel by pixel. -/
theorem drawXorsTheSprite : Obligations.DrawXorsTheSprite := by
  intro x y n s h
  obtain ⟨t, hit, ht, hdone, hkeep, hv, hvf, hflips⟩ := exec_drwVxVyNibble_spec (x := x) (y := y) h
  refine ⟨t, ht, hdone, hkeep, hv, fun px py => ⟨hflips.flipped px py, hflips.kept px py⟩, fun hcol => ?_, fun hno => ?_⟩
  · rw [hvf, flagByte_eq_one_iff]
    exact hflips.hit_iff.mpr hcol
  · have hmiss : hit = false := by
      rw [← Bool.not_eq_true, hflips.hit_iff]
      rintro ⟨px, py, hits, hone⟩
      exact Bool.noConfusion (hone.symm.trans (hno px py hits))
    rw [hvf, hmiss]
    rfl

/-! ## Drawing twice -/

/-- Two draws with the same coordinates draw on the same pixels: I and memory are kept. -/
theorem drawHits_of_keepsAllBut {x y : Reg} {n : BitVec 4} {s t : State} (hkeep : KeepsAllBut [.v, .fb] s t)
    (hx : t.readV x = s.readV x) (hy : t.readV y = s.readV y) : drawHits x y n t = drawHits x y n s := by
  have hbytes : ∀ a, t.readByte a = s.readByte a := hkeep.mem (by decide)
  funext px py
  simp only [drawHits, SpriteHits, hx, hy, hkeep.i (by decide), hbytes]

theorem Flips.twice {hits : Fin 64 → Fin 32 → Prop} {fb fb' : FrameBuffer} {c c' : Bool} {u : FrameBuffer × Bool}
    (f : Flips hits (fb, c) (fb', c')) (g : Flips hits (fb', false) u) (px : Fin 64) (py : Fin 32) :
    u.1.get px py = fb.get px py := by
  by_cases h : hits px py
  · rw [g.flipped px py h, f.flipped px py h, Bool.not_not]
  · rw [g.kept px py h, f.kept px py h]

/-- The second draw collides with the pixels the first one set. -/
theorem Flips.hit_twice_iff {hits : Fin 64 → Fin 32 → Prop} {fb fb' fb'' : FrameBuffer} {c c' hit : Bool}
    (f : Flips hits (fb, c) (fb', c')) (g : Flips hits (fb', false) (fb'', hit)) :
    hit = true ↔ ∃ px py, hits px py ∧ fb.get px py = false := by
  rw [g.hit_iff]
  refine exists_congr fun px => exists_congr fun py => and_congr_right fun h => ?_
  rw [f.flipped px py h]
  exact iff_of_eq (Bool.not_eq_true' _)

theorem getLsbD_zero_byte (k : Nat) : (0 : Byte).getLsbD k = false := BitVec.getLsbD_zero

/-- A byte that is not 0 has a 1 bit. -/
theorem exists_getLsbD_of_ne_zero {b : Byte} (h : b ≠ 0) : ∃ k, k < 8 ∧ b.getLsbD k = true := by
  by_contra hnone
  refine h (BitVec.eq_of_getLsbD_eq fun k hk => ?_)
  rw [getLsbD_zero_byte, ← Bool.not_eq_true]
  exact fun hb => hnone ⟨k, hk, hb⟩

/-- A sprite draws on some pixel exactly when it has a 1 bit. -/
theorem exists_spriteHits_iff (s : State) (x0 y0 base n : Nat) :
    (∃ px py, SpriteHits s x0 y0 base n px py) ↔ ∃ r : Nat, r < n ∧ s.readByte (base + r) ≠ 0 := by
  constructor
  · rintro ⟨px, py, r, c, hr, -, hbit, -⟩
    refine ⟨r, hr, fun h0 => ?_⟩
    rw [h0, getLsbD_zero_byte] at hbit
    exact Bool.noConfusion hbit
  · rintro ⟨r, hr, hne⟩
    obtain ⟨k, hk, hbit⟩ := exists_getLsbD_of_ne_zero hne
    refine ⟨column (x0 + (7 - k)), row (y0 + r), r, 7 - k, hr, by omega, ?_, rfl, rfl⟩
    rwa [Nat.sub_sub_self (Nat.le_of_lt_succ hk)]

/-- Settles O39: the second drawing flips the pixels of the first. -/
theorem drawingTwiceRestoresTheFrameBuffer : Obligations.DrawingTwiceRestoresTheFrameBuffer := by
  intro x y n s h
  obtain ⟨t, hit, ht, -, hkeep, -, -, hfirst⟩ := exec_drwVxVyNibble_spec (x := x) (y := y) h
  refine ⟨t, ht, fun hx hy => ?_⟩
  have hi : t.i = s.i := hkeep.i (by decide)
  obtain ⟨u, hit', hu, hdone, -, -, hvf, hsecond⟩ :=
    exec_drwVxVyNibble_spec (x := x) (y := y) (n := n) (s := t) (by rw [hi]; exact h)
  rw [drawHits_of_keepsAllBut hkeep hx hy] at hsecond
  have hcol : u.readV Reg.vf = 1 ↔ ∃ px py, drawHits x y n s px py ∧ s.fb.get px py = false := by
    rw [hvf, flagByte_eq_one_iff]
    exact hfirst.hit_twice_iff hsecond
  refine ⟨u, hu, hdone, hfirst.twice hsecond, hcol, fun hblank => ?_⟩
  rw [hcol, ← exists_spriteHits_iff s (s.readV x).toNat (s.readV y).toNat]
  simp only [hblank, and_true]
  rfl

end Sys2Proof.Machine
end

section
/-! The keypad, the timers and the key wait (45_timers_keypad.md). -/

namespace Sys2Proof

theorem decode_Fx07 (x : Reg) : decode (0xF#4 ++ regBits x ++ 0x07#8) = some (.ldVxDT x) :=
  decodeInvertsEncode (.ldVxDT x)

theorem decode_Fx15 (x : Reg) : decode (0xF#4 ++ regBits x ++ 0x15#8) = some (.ldDTVx x) :=
  decodeInvertsEncode (.ldDTVx x)

theorem decode_Fx18 (x : Reg) : decode (0xF#4 ++ regBits x ++ 0x18#8) = some (.ldSTVx x) :=
  decodeInvertsEncode (.ldSTVx x)

end Sys2Proof

namespace Sys2Proof.Machine

open Sys2Proof.Safety

/-! ## The keypad skips (R123, R124) -/

theorem exec_skpVx (x : Reg) (s : State) : exec (.skpVx x) s = executed (s.skipIf (s.key (keyOperand x s))) := rfl

theorem exec_sknpVx (x : Reg) (s : State) : exec (.sknpVx x) s = executed (s.skipIf (!s.key (keyOperand x s))) := rfl

/-- Settles O48: each skip is one `executed_skipIf` on the key of the masked index. -/
theorem keySkipsTestTheKey : Obligations.KeySkipsTestTheKey := by
  intro x k s hk
  have hkey : keyOperand x s = k := Fin.ext ((maskedIndex_val _ _).trans hk.symm)
  rw [exec_skpVx, exec_sknpVx, hkey]
  refine ⟨fun hmask => ?_, executed_skipIf s (s.key k), ?_⟩
  · rw [← hkey, keyOperand, hmask]
    exact maskedIndex_lowNibble (s.readV x)
  · obtain ⟨t, ht, hdone, hkeep, hpc⟩ := executed_skipIf s (!s.key k)
    refine ⟨t, ht, hdone, hkeep, hpc.trans ?_⟩
    cases s.key k <;> rfl

/-! ## The timers (R125, R127, R128) -/

theorem exec_ldVxDT (x : Reg) (s : State) : exec (.ldVxDT x) s = executed (s.writeV x s.dt) := rfl

theorem exec_ldDTVx (x : Reg) (s : State) : exec (.ldDTVx x) s = executed { s with dt := s.readV x } := rfl

theorem exec_ldSTVx (x : Reg) (s : State) : exec (.ldSTVx x) s = executed { s with st := s.readV x } := rfl

/-- Settles O49: FX07 is one `executed_writeV`, and FX15 and FX18 each replace one timer. -/
theorem timerInstructionsMoveTheTimers : Obligations.TimerInstructionsMoveTheTimers := by
  intro x s
  have hdt := (exec_ldDTVx x s).trans (executed_eq _)
  have hst := (exec_ldSTVx x s).trans (executed_eq _)
  refine ⟨decode_Fx07 x, decode_Fx15 x, decode_Fx18 x, ?_, ⟨_, hdt, rfl, rfl, (exec_keepsFields hdt).keepsAllBut⟩,
    ⟨_, hst, rfl, rfl, (exec_keepsFields hst).keepsAllBut, decide_eq_true_iff⟩⟩
  rw [exec_ldVxDT]
  exact executed_writeV s x s.dt

/-! ## The key wait (R126) -/

/-- A poll counts only pressed keys. -/
theorem State.countsKey_of_key_eq_false {s : State} {k : Reg} (h : s.key k = false) : s.countsKey k = false := by
  rw [← Bool.not_eq_true, ← keyCounts_iff]
  rintro ⟨hkey, -⟩
  exact Bool.noConfusion (h.symm.trans hkey)

/-- A key the host presses is the one a poll takes, where none before it in the order is pressed and an edge-sensitive
wait has not seen it pressed (R80). -/
theorem selectKey_setKey {s : State} {k : Reg}
    (hseen : s.params.keyWaitSelect.sense = .edge → s.seenKeys[k.val] = false)
    (hlo : s.params.keyWaitSelect.order = .lowest → ∀ j, j < k → s.key j = false)
    (hhi : s.params.keyWaitSelect.order = .highest → ∀ j, k < j → s.key j = false) :
    selectKey (setKey k true s) = some k := by
  have hk : (setKey k true s).countsKey k = true :=
    (keyCounts_iff _ k).mp ⟨(key_setKey s k k true).trans (if_pos rfl), hseen⟩
  refine selectKey_some hk (fun ho j hj => State.countsKey_of_key_eq_false ?_)
    (fun ho j hj => State.countsKey_of_key_eq_false ?_)
  · rw [key_setKey, if_neg (ne_of_lt hj)]
    exact hlo ho j hj
  · rw [key_setKey, if_neg (ne_of_gt hj)]
    exact hhi ho j hj

/-- All that FX0A does in its own step. -/
theorem exec_ldVxK_spec (x : Reg) (s : State) :
    ∃ t, exec (.ldVxK x) s = .next t ∧ t.lastResult = some (.outcome .awaitingKey) ∧ t.aw = some x ∧
      KeepsAllBut [.aw, .seenKeys] s t ∧ (s.params.keyWaitSelect.sense = .level → t.seenKeys = s.seenKeys) ∧
      (s.params.keyWaitSelect.sense = .edge → t.seenKeys = s.keys) := by
  have hnext := (exec_ldVxK x s).trans (awaiting_eq _)
  exact ⟨_, hnext, rfl, State.lookAtKeys_aw _, (exec_keepsFields hnext).keepsAllBut,
    State.lookAtKeys_seenKeys_level (s := { s with aw := some x }),
    State.lookAtKeys_seenKeys_edge (s := { s with aw := some x })⟩

/-- Settles O50: the keys an edge-sensitive wait has seen are those of `s`, so the poll of the next step takes `k`. -/
theorem keyWaitIsEnteredAndEnded : Obligations.KeyWaitIsEnteredAndEnded := by
  intro x k s
  obtain ⟨t, ht, hres, haw, hkeep, hlevel, hedge⟩ := exec_ldVxK_spec x s
  refine ⟨t, ht, hres, haw, hkeep, hlevel, hedge, fun hlo hhi hnew => ?_⟩
  have hkey : ∀ j, t.key j = s.key j := hkeep.keys (by decide)
  have hsel : selectKey (setKey k true t) = some k := by
    apply selectKey_setKey <;> rw [hkeep.params]
    · intro he
      simp only [hedge he]
      exact hnew he
    · simpa only [hkey] using hlo
    · simpa only [hkey] using hhi
  obtain ⟨u, hu, hdone, hx, -, huaw, hukeep⟩ := keywaitPoll_of_selectKey_some (x := x) hsel
  have hstep := (step_of_aw_some (s := setKey k true t) haw).trans hu
  exact ⟨u, hstep, hdone, huaw, hx, (hukeep.pc (by decide)).trans (hkeep.pc (by decide))⟩

end Sys2Proof.Machine
end

section
/-! The host operations (60_exceptions.md, 70_reset_and_hazards.md): set_key, init, load, the accessors, the probe, and
observations under every sequence of them. -/

namespace Sys2Proof.Machine

open Sys2Proof.Safety

/-! ## set_key (60_exceptions.md R135, R139) -/

theorem keepsAllBut_setKey (k : Reg) (b : Bool) (s : State) : KeepsAllBut [.keys] s (setKey k b s) := by
  apply KeepsAllBut.of_fields <;> simp

theorem setKey_setKey (k : Reg) (b c : Bool) (s : State) : setKey k c (setKey k b s) = setKey k c s := by
  simp only [setKey, Vector.set_set]

/-- Settles O52: by the laws of `setKey`. -/
theorem setKeySetsOneKey : Obligations.SetKeySetsOneKey :=
  fun k b s => ⟨fun j => key_setKey s k j b, keepsAllBut_setKey k b s, setKey_setKey k true false s⟩

/-! ## init (R151) -/

/-- Outside the font an untouched memory holds 0x00 (20_memory.md section 3). -/
theorem readByte_outside_font {s : State} (hm : s.mem = []) {a : Nat}
    (ha : a < s.params.fontBase.val ∨ s.params.fontBase.val + 80 ≤ a) : s.readByte a = 0 := by
  rw [State.readByte, Memory.read, hm, Memory.lookup, Option.getD_none, Memory.unlisted, dif_neg (by omega)]

theorem readV_init (p : Config.Params) (n : Nat) (x : Reg) : (State.init p n).readV x = 0 :=
  Vector.getElem_replicate _

theorem stack_init (p : Config.Params) (n : Nat) (j : Fin 16) : (State.init p n).stack[j.val] = 0 :=
  Vector.getElem_replicate _

theorem key_init (p : Config.Params) (n : Nat) (k : Reg) : (State.init p n).key k = false :=
  Vector.getElem_replicate _

/-- Settles O53: memory lists nothing, and every other field of `State.init` is written out. -/
theorem initGivesTheResetTable : Obligations.InitGivesTheResetTable := by
  refine ⟨rfl, fun p n s hs => ?_⟩
  subst hs
  exact ⟨fun j => readByte_font rfl j.isLt, fun a ha => readByte_outside_font rfl ha, readV_init p n, rfl, rfl,
    stack_init p n, rfl, rfl, rfl, FrameBuffer.get_blank, key_init p n, rfl⟩

/-! ## load (R153, R154) -/

theorem hostOp_load_ok {bytes : List Byte} {given : Option Nat} {s t : State}
    (h : hostLoad bytes (given.getD 0x200) s = .ok t) : hostOp (.load bytes given) s = .next (t, .loaded) := by
  rw [hostOp, loadOffset_eq, h]

theorem hostOp_load_error {bytes : List Byte} {given : Option Nat} {s : State} {e : LoadError}
    (h : hostLoad bytes (given.getD 0x200) s = .error e) :
    hostOp (.load bytes given) s = .next (s, .loadError e) := by
  rw [hostOp, loadOffset_eq, h]

/-- Settles O55: the two failing cases of `hostLoad_cases`. -/
theorem rejectedLoadChangesNothing : Obligations.RejectedLoadChangesNothing := by
  rintro bytes given offset s rfl
  obtain ⟨hoff, hl⟩ | ⟨hoff, hlen, hl⟩ | ⟨hoff, hlen, -⟩ := hostLoad_cases bytes (given.getD 0x200) s
  · exact ⟨fun _ => hostOp_load_error hl, fun h => absurd hoff (Nat.not_lt.mpr h)⟩
  · exact ⟨fun h => absurd h (Nat.not_lt.mpr hoff), fun _ _ => hostOp_load_error hl⟩
  · exact ⟨fun h => absurd h (Nat.not_lt.mpr hoff), fun _ h => absurd h (Nat.not_lt.mpr hlen)⟩

/-- Settles O54: the last case of `hostLoad_cases`, with the law of a block store on the state of init. -/
theorem loadResetsAndWritesTheProgram : Obligations.LoadResetsAndWritesTheProgram := by
  rintro bytes given offset s rfl hoff hlen
  obtain ⟨hoff', -⟩ | ⟨-, hlen', -⟩ | ⟨-, -, hl⟩ := hostLoad_cases bytes (given.getD 0x200) s
  · omega
  · omega
  have hbyte := (hostInit s).readByte_writeBytes (given.getD 0x200) bytes
  refine ⟨_, hostOp_load_ok hl, ?_, ?_, fun j hj => (hbyte _).trans ?_, fun a ha => (hbyte a).trans (if_neg (by omega)),
    ?_⟩
  · rw [BitVec.toNat_ofNat]
    omega
  · simp [hostInit, State.init]
  · rw [if_pos (by omega), Nat.add_sub_cancel_left, List.getD_eq_getElem _ _ hj]
  · apply KeepsAllBut.of_fields <;> simp [hostInit]

/-! ## The accessors (60_exceptions.md R141) -/

/-- Settles O56: the snapshot reads all of memory as one block. -/
theorem accessorsOnlyRead : Obligations.AccessorsOnlyRead := by
  intro s
  refine ⟨rfl, rfl, snapshotOf s, rfl, s.readBytes_length 0 4096, fun a ha => ?_, rfl, rfl, rfl, rfl, rfl, rfl, rfl, rfl⟩
  exact (s.readBytes_getD 0 4096 a ha).trans (congrArg s.readByte (Nat.zero_add a))

/-! ## Parameters and oracle (10_state.md R41, 70_reset_and_hazards.md R157) -/

/-- Only RND draws, one byte (42_register_alu.md R114). -/
theorem exec_draws_le {i : Instr} {s t : State} (h : exec i s = .next t) : s.draws ≤ t.draws := by
  by_cases hd : .draws ∈ mayChange i
  case neg => exact Nat.le_of_eq ((exec_keepsFields h).draws hd).symm
  case pos =>
    cases i with
    | rndVxByte x kk =>
      rw [eq_of_executed h]
      exact Nat.le_succ s.draws
    | _ => simp [mayChange] at hd

theorem step_params_draws {s t : State} (h : step s = .next t) : t.params = s.params ∧ s.draws ≤ t.draws := by
  obtain ⟨x, -, hstep⟩ | ⟨e, -, -, hstep⟩ | ⟨w, -, -, -, hstep⟩ | ⟨w, i, -, -, -, hstep⟩ := step_cases s <;>
    rw [hstep] at h
  · have hframe := (keywaitPoll_endsWithin x s).keepsFields h
    exact ⟨hframe.params, Nat.le_of_eq (hframe.draws (by decide)).symm⟩
  · cases h; exact ⟨rfl, Nat.le_refl _⟩
  · cases h; exact ⟨rfl, Nat.le_refl _⟩
  · exact ⟨(exec_keepsFields h).params, exec_draws_le (s := s.addTwo) h⟩

/-- What an answered step of the host is a step of. -/
theorem step_of_hostOp_step {s t : State} {r : HostReply} (h : hostOp .step s = .next (t, r)) : step s = .next t := by
  obtain ⟨u, hu, -⟩ := step_exists_next s
  rw [hostOp_step hu] at h
  cases h
  exact hu

/-- Settles O57: init and load keep both, and a step draws a byte or none. -/
theorem parametersAndOracleOutliveEverything : Obligations.ParametersAndOracleOutliveEverything := by
  intro op s t r h
  cases op with
  | load bytes given =>
    obtain ⟨-, hl⟩ | ⟨-, -, hl⟩ | ⟨-, -, hl⟩ := hostLoad_cases bytes (given.getD 0x200) s
    · rw [hostOp_load_error hl] at h; cases h; exact ⟨rfl, Nat.le_refl _⟩
    · rw [hostOp_load_error hl] at h; cases h; exact ⟨rfl, Nat.le_refl _⟩
    · rw [hostOp_load_ok hl] at h; cases h
      simp [hostInit, State.init]
  | step => exact step_params_draws (step_of_hostOp_step h)
  | _ => cases h; exact ⟨rfl, Nat.le_refl _⟩

/-! ## The host's probe (log 6) -/

theorem withRoomAtPC_pc_lt (s : State) : (withRoomAtPC s).pc.toNat < 0xFFF := by
  unfold withRoomAtPC
  split
  case isTrue h => exact h
  case isFalse => rw [State.writePC_pc]; decide

/-- Two bytes stored at a PC with room are the next fetch. -/
theorem fetch_placeBytes {s : State} (h : s.pc.toNat < 0xFFF) (hi lo : Byte) :
    fetch (placeBytes s [hi, lo]) = .ok (wordOfBytes hi lo) := by
  have hpc : (placeBytes s [hi, lo]).pc = s.pc := State.writeBytes_pc _ _ _
  have hbyte : ∀ k, (placeBytes s [hi, lo]).readByte k = _ := s.readByte_writeBytes s.pc.toNat [hi, lo]
  rw [fetch_of_pc_lt (by rw [hpc]; exact h), hpc, hbyte, hbyte]
  simp

/-- Settles O58: the placed word is fetched, and no wait is pending. -/
theorem placedWordRunsNext : Obligations.PlacedWordRunsNext := by
  intro s w i hd
  rw [decodeTableWord_eq] at hd
  have hf : fetch (s.withFetchWord 16 w) = .ok (tableWord 16 w) :=
    (fetch_placeBytes (withRoomAtPC_pc_lt s) _ _).trans (congrArg _ (wordOfBytes_bytesOfWord _))
  exact step_of_decode_some rfl hf hd

end Sys2Proof.Machine

namespace Sys2Proof.Safety

open Sys2Proof.Machine

/-! ## Observations (60_exceptions.md R148, R149) -/

theorem runEnd_ne_noMove (s t : State) : runEnd s t ≠ some .noMove := by
  fun_cases runEnd s t <;> exact nofun

theorem opEnd_ne_noMove (op : HostOp) (s t : State) : opEnd op s t ≠ some .noMove := by
  cases op with
  | step => exact runEnd_ne_noMove s t
  | _ => exact nofun

/-- An observation lacks no move, and ends in a state with every property that the operations keep. -/
theorem observe_keeps {P : State → Prop} (hop : ∀ op s t r, P s → hostOp op s = .next (t, r) → P t)
    (ops : List HostOp) (s : State) : (observe ops s).1 ≠ .noMove ∧ (P s → P (observe ops s).2) := by
  induction ops generalizing s with
  | nil => exact ⟨nofun, id⟩
  | cons op ops ih =>
    obtain ⟨t, r, ht⟩ := hostOp_exists_next op s
    cases hend : opEnd op s t with
    | none =>
      rw [observe_cons_go ht hend]
      exact ⟨(ih t).1, fun hs => (ih t).2 (hop op s t r hs ht)⟩
    | some e =>
      rw [observe_cons_end ht hend]
      exact ⟨fun he => opEnd_ne_noMove op s t (he ▸ hend), fun hs => hop op s t r hs ht⟩

/-- The state is about to run a jump to its own address (41_control_flow.md R95). -/
def IdlesNext (s : State) : Prop :=
  s.aw = none ∧ s.pc.toNat < 0xFFF ∧ fetch s = .ok (0x1#4 ++ BitVec.ofNat 12 s.pc.toNat)

/-- A fetch reads memory and PC only (R81). -/
theorem fetch_congr {s t : State} (params : t.params = s.params) (mem : t.mem = s.mem) (pc : t.pc = s.pc) :
    fetch t = fetch s := by
  simp only [fetch, memRead, State.readByte_congr params mem, pc]

/-- A tick or a key change leaves it about to. -/
theorem IdlesNext.of_fields {s t : State} (h : IdlesNext s) (params : t.params = s.params) (mem : t.mem = s.mem)
    (pc : t.pc = s.pc) (aw : t.aw = s.aw) : IdlesNext t := by
  obtain ⟨ha, hpc, hf⟩ := h
  unfold IdlesNext
  rw [aw, fetch_congr params mem pc, pc]
  exact ⟨ha, hpc, hf⟩

/-- The first step of the sequence is the idle loop's, and it ends the observation; nothing before it touches the
program. -/
theorem IdlesNext.safeUnder {ops : List HostOp} {s : State} (hs : IdlesNext s) (hops : ∀ op ∈ ops, KeepsProgram op) :
    SafeUnder ops s := by
  induction ops generalizing s with
  | nil => exact .inl rfl
  | cons op ops ih =>
    have hrest : ∀ op ∈ ops, KeepsProgram op := fun o ho => hops o (List.mem_cons_of_mem _ ho)
    have hop : KeepsProgram op := hops op (List.mem_cons_self ..)
    unfold SafeUnder
    cases op with
    | init | load _ _ => exact hop.elim
    | step =>
      obtain ⟨ha, hpc, hf⟩ := hs
      obtain ⟨t, ht, -, -, hend⟩ := selfJumpIsTheIdleLoop s ha hpc hf
      rw [observe_cons_end (hostOp_step ht) hend]
      exact .inr rfl
    | tickTimers =>
      rw [observe_cons_go rfl rfl]
      exact ih (hs.of_fields rfl rfl rfl rfl) hrest
    | setKey k b =>
      rw [observe_cons_go rfl rfl]
      exact ih (hs.of_fields rfl rfl rfl rfl) hrest
    | frameBuffer | soundTimer | snapshot =>
      rw [observe_cons_go rfl rfl]
      exact ih hs hrest

/-- Settles O60: the first half is `observe_keeps` of the invariant (O59), the second `IdlesNext.safeUnder`. -/
theorem observationsHoldUnderEveryHost : Obligations.ObservationsHoldUnderEveryHost :=
  ⟨observe_keeps hostOperationsKeepTheInvariant, fun _ ha hpc hf _ hops =>
    IdlesNext.safeUnder ⟨ha, hpc, hf⟩ hops⟩

end Sys2Proof.Safety
end
